-- ==== Sys2Proof/Word.lean ====
section
/-! DEFINITION. The word types of the engine. -/

namespace Sys2Proof

/-- `Bits64` of rule R9: a register value, a bus value or one lane. -/
abbrev Word := BitVec 64

/-- One byte of a message, of the output stream or of the state byte space (rule R66). -/
abbrev Byte := BitVec 8

/-- The value of a two-way field: 1 for true, 0 for false (bit fields of rule R30). -/
abbrev bit (b : Bool) : BitVec 1 := BitVec.ofBool b

end Sys2Proof
end

