-- ==== Sys2Proof/Config.lean ====
section
/-! DEFINITION. What the platform fixes: the two open parameters of rule R8, as constants without a body. -/

namespace Sys2Proof

/-- Which 0x100-byte slot of the host's bus holds the register window. Free: the platform's choice (U2, D3). -/
opaque Config.windowSlot : Nat

/-- `BASE` (rule R8): the bus address of the register window, a multiple of 0x100 (D3). -/
def Config.base : Nat := 0x100 * Config.windowSlot

/-- The size in bytes of the register window (rules R8 and R73). -/
def Config.windowSize : Nat := 0x100

/-- How many cycles `PERM_LATENCY` exceeds its least value 1. Free: the implementation's (U1, D21). -/
opaque Config.extraLatency : Nat

/-- `PERM_LATENCY` (rule R272): cycles from the issue of a BUSY-setting command to its completion, at least 1.
No definition of the model reads it, since no rule depends on it (rule R8). -/
def Config.permLatency : Nat := 1 + Config.extraLatency

end Sys2Proof
end

