-- ==== Sys2Proof/Syntax.lean ====
section
/-! DEFINITION. The commands: one constructor per row of spec/opcode_table.json, operands as the encoding's fields
(rules R92 and R93). -/

namespace Sys2Proof

/-- The ten opcodes of rule R92. -/
inductive Opcode where
  | nop | init | absorb | finalize | squeeze | finish | permute | laneWr | laneRd | clrerr
  deriving DecidableEq, Repr

/-- A command with its operand fields (rules R93 and R94). The fields keep their encoded width, so a term may hold a
value that rule R93 does not allow: `Instr.wellFormed` says which may not. -/
inductive Instr where
  /-- NOP: do nothing (rule R206). -/
  | nop
  /-- INIT: start a session; FUNC = w[11:8], BE = w[12] (rule R161). -/
  | init (func : BitVec 4) (be : Bool)
  /-- ABSORB: absorb N bytes of DIN; N = w[11:8] (rule R163). -/
  | absorb (n : BitVec 4)
  /-- FINALIZE: pad, permute and start squeezing (rule R166). -/
  | finalize
  /-- SQUEEZE: produce N bytes into DOUT; N = w[11:8] (rule R169). -/
  | squeeze (n : BitVec 4)
  /-- FINISH: close the session (rule R172). -/
  | finish
  /-- PERMUTE: apply the permutation to the whole state (rule R200). -/
  | permute
  /-- LANE_WR: write lane IDX from DIN; IDX = w[12:8] (rule R202). -/
  | laneWr (idx : BitVec 5)
  /-- LANE_RD: read lane IDX into DOUT; IDX = w[12:8] (rule R204). -/
  | laneRd (idx : BitVec 5)
  /-- CLRERR: clear the recorded error (rule R208). -/
  | clrerr
  deriving DecidableEq, Repr

/-- The opcode of a command. -/
def Instr.opcode : Instr → Opcode
  | .nop => .nop
  | .init _ _ => .init
  | .absorb _ => .absorb
  | .finalize => .finalize
  | .squeeze _ => .squeeze
  | .finish => .finish
  | .permute => .permute
  | .laneWr _ => .laneWr
  | .laneRd _ => .laneRd
  | .clrerr => .clrerr

/-- What the decode rule says of a word whose opcode is known (rule R96). -/
inductive Verdict where
  /-- OK. -/
  | ok
  /-- ILLEGAL_OPERAND: reported as ERR = ILLEGAL. -/
  | illegalOperand
  /-- BAD_CONFIG: reported as ERR = CONFIG. -/
  | badConfig
  deriving DecidableEq, Repr

end Sys2Proof
end

