-- ==== Sys2Proof/WellFormed.lean ====
section
/-! DEFINITION. The legal operand values of rule R93, as one check per field. -/

namespace Sys2Proof

/-- FUNC is one of the values INIT accepts: 0 to 5, or 15 (rules R93 and R95). -/
def funcField (f : BitVec 4) : Bool := f.toNat ≤ 5 || f.toNat == 15

/-- N is a byte count from 0 to 8 (rule R93). -/
def countField (n : BitVec 4) : Bool := n.toNat ≤ 8

/-- IDX is a lane index from 0 to 24 (rule R93). -/
def laneField (l : BitVec 5) : Bool := l.toNat ≤ 24

/-- The operands of a command hold legal values (rule R93). -/
def Instr.wellFormed : Instr → Bool
  | .nop => true
  | .init func _ => funcField func
  | .absorb n => countField n
  | .finalize => true
  | .squeeze n => countField n
  | .finish => true
  | .permute => true
  | .laneWr idx => laneField idx
  | .laneRd idx => laneField idx
  | .clrerr => true

/-- `Instr.wellFormed` as a proposition. -/
abbrev Instr.WellFormed (i : Instr) : Prop := i.wellFormed = true

end Sys2Proof
end

