-- ==== Sys2Proof/Decode.lean ====
section
/-! DEFINITION. From the word written to CMD to a command or a rejection by name (rules R90 to R99), and back. -/

namespace Sys2Proof

/-- What the decoder says of a word. -/
inductive Decoded where
  /-- The word is a command. -/
  | command (i : Instr)
  /-- ILLEGAL_OPCODE: the opcode is 0x0A to 0xFF (rule R97). -/
  | illegalOpcode
  /-- ILLEGAL_OPERAND: a reserved bit is set, or an ARG value is not a legal one, under the given opcode (rule R97). -/
  | illegalOperand (op : Opcode)
  /-- BAD_CONFIG: INIT with a reserved FUNC (rules R95 and R96). -/
  | badConfig
  deriving DecidableEq, Repr

/-! ## Fields -/

/-- OP = w[7:0] (rule R90). -/
def opField (w : Word) : BitVec 8 := w.extractLsb' 0 8

/-- ARG = w[12:8] (rule R90). -/
def argField (w : Word) : BitVec 5 := w.extractLsb' 8 5

/-- RES = w[63:13] (rule R90). -/
def resField (w : Word) : BitVec 51 := w.extractLsb' 13 51

/-- The opcode with the given number, where there is one (rule R92). -/
def Opcode.ofCode? (op : BitVec 8) : Option Opcode :=
  match op.toNat with
  | 0x00 => some .nop
  | 0x01 => some .init
  | 0x02 => some .absorb
  | 0x03 => some .finalize
  | 0x04 => some .squeeze
  | 0x05 => some .finish
  | 0x06 => some .permute
  | 0x07 => some .laneWr
  | 0x08 => some .laneRd
  | 0x09 => some .clrerr
  | _ => none

/-! ## Operand legality -/

/-- The verdict on INIT's FUNC (rules R95 and R96). -/
def funcVerdict (func : BitVec 4) : Verdict :=
  if func = 0 ∨ func = 1 ∨ func = 2 ∨ func = 3 ∨ func = 4 ∨ func = 5 ∨ func = 15 then .ok else .badConfig

/-- The verdict on the N of ABSORB and SQUEEZE (rule R96). -/
def countVerdict (n : BitVec 4) : Verdict := if 8 < n then .illegalOperand else .ok

/-- The verdict on the IDX of LANE_WR and LANE_RD (rule R96). -/
def laneVerdict (idx : BitVec 5) : Verdict := if 24 < idx then .illegalOperand else .ok

/-- The verdict on a command's operands (rule R96). -/
def Instr.verdict : Instr → Verdict
  | .init func _ => funcVerdict func
  | .absorb n => countVerdict n
  | .squeeze n => countVerdict n
  | .laneWr idx => laneVerdict idx
  | .laneRd idx => laneVerdict idx
  | .nop => .ok
  | .finalize => .ok
  | .finish => .ok
  | .permute => .ok
  | .clrerr => .ok

/-! ## The decoder -/

/-- A command, or its rejection when its operands are not legal. -/
def Instr.checked (i : Instr) : Decoded :=
  match i.verdict with
  | .ok => .command i
  | .illegalOperand => .illegalOperand i.opcode
  | .badConfig => .badConfig

/-- A command that takes no operand: ARG must be 0 (rule R93). -/
def withoutOperand (i : Instr) (arg : BitVec 5) : Decoded :=
  if arg = 0 then .command i else .illegalOperand i.opcode

/-- A command that takes a byte count: w[12] must be 0 (rule R93). -/
def withCount (mk : BitVec 4 → Instr) (arg : BitVec 5) : Decoded :=
  if arg.getLsbD 4 then .illegalOperand (mk 0).opcode else (mk (arg.extractLsb' 0 4)).checked

/-- The ARG field read under an opcode (rules R93 and R96). -/
def decodeOperand (op : Opcode) (arg : BitVec 5) : Decoded :=
  match op with
  | .nop => withoutOperand .nop arg
  | .init => (Instr.init (arg.extractLsb' 0 4) (arg.getLsbD 4)).checked
  | .absorb => withCount .absorb arg
  | .finalize => withoutOperand .finalize arg
  | .squeeze => withCount .squeeze arg
  | .finish => withoutOperand .finish arg
  | .permute => withoutOperand .permute arg
  | .laneWr => (Instr.laneWr arg).checked
  | .laneRd => (Instr.laneRd arg).checked
  | .clrerr => withoutOperand .clrerr arg

/-- The decode verdict of a word, in the order of rule R96. -/
def decode (w : Word) : Decoded :=
  match Opcode.ofCode? (opField w) with
  | none => .illegalOpcode
  | some op => if resField w ≠ 0 then .illegalOperand op else decodeOperand op (argField w)

/-- The command the decoder reads from a word of `nbits` bits, bit 0 the least significant, the bits above 0. -/
def decodeTableWord (nbits w : Nat) : Option Instr :=
  match decode (BitVec.ofNat 64 (w % 2 ^ nbits)) with
  | .command i => some i
  | .illegalOpcode => none
  | .illegalOperand _ => none
  | .badConfig => none

/-! ## The encoder -/

/-- OP of a command: the match column of rule R99. -/
def Instr.op : Instr → BitVec 8
  | .nop => 0x00
  | .init _ _ => 0x01
  | .absorb _ => 0x02
  | .finalize => 0x03
  | .squeeze _ => 0x04
  | .finish => 0x05
  | .permute => 0x06
  | .laneWr _ => 0x07
  | .laneRd _ => 0x08
  | .clrerr => 0x09

/-- ARG of a command: the fields of rule R93, w[12] before w[11:8]. -/
def Instr.arg : Instr → BitVec 5
  | .init func be => bit be ++ func
  | .absorb n => 0#1 ++ n
  | .squeeze n => 0#1 ++ n
  | .laneWr idx => idx
  | .laneRd idx => idx
  | .nop => 0
  | .finalize => 0
  | .finish => 0
  | .permute => 0
  | .clrerr => 0

/-- The word of a command: RES, ARG and OP of format CMD64 (rule R90), with RES = 0. -/
def encode (i : Instr) : Word := 0#51 ++ i.arg ++ i.op

end Sys2Proof
end

