-- ==== Sys2Proof/Machine/State.lean ====
section
/-! DEFINITION. The state of the engine, the inputs of its port, and the state after reset. -/

namespace Sys2Proof.Machine

/-- The lane file `A`: 25 lanes of 64 bits (rules R20 and R23). -/
abbrev Lanes := Vector Word 25

/-- The phases of rule R31. The encodings 6 and 7, which PHASE never takes, have no constructor (U11). -/
inductive Phase where
  /-- After reset, no session. -/
  | idle
  /-- A sponge session started by INIT, no ABSORB yet. -/
  | created
  /-- At least one ABSORB accepted since INIT. -/
  | absorbing
  /-- FINALIZE accepted, output may be squeezed. -/
  | squeezing
  /-- The output is complete, or FINISH closed the session. -/
  | finished
  /-- INIT with FUNC = 15: lane access and PERMUTE. -/
  | raw
  deriving DecidableEq, Repr

/-- The values FUNC holds (rule R95). INIT never writes the reserved values 6 to 14, which have no constructor. -/
inductive Func where
  | sha3_224 | sha3_256 | sha3_384 | sha3_512 | shake128 | shake256 | raw
  deriving DecidableEq, Repr

/-- The values of STATUS.ERR (rule R230). The codes 5 to 15, which ERR never takes, have no constructor (U11). -/
inductive ErrCode where
  /-- NONE: no error recorded. -/
  | noError
  /-- CONFIG: INIT with a reserved FUNC. -/
  | config
  /-- SEQUENCE: a command outside its phases, or a fixed-output SQUEEZE past D bytes. -/
  | sequence
  /-- ILLEGAL: a reserved opcode, a reserved bit, or an operand out of range. -/
  | illegal
  /-- BUSY: a command other than NOP and CLRERR issued while BUSY = 1. -/
  | busy
  deriving DecidableEq, Repr

/-- The five registers of the window (rule R26). -/
inductive Reg where
  | cmd | status | din | dout | irqen
  deriving DecidableEq, Repr

/-- One thing that happens at the engine: an access at its bus port, a turn of the engine on its own, or reset.
Offsets are relative to `Config.base`. -/
inductive Event where
  /-- `MemRead(off, size)` (rule R61), `size` in bytes. -/
  | read (off : BitVec 8) (size : Nat)
  /-- `MemWrite(off, size, value)` (rule R61). Only an 8-byte write is accepted, and `value` is then the bus value. -/
  | write (off : BitVec 8) (size : Nat) (value : Word)
  /-- A point where completion may happen (rule R265). -/
  | engineTurn
  /-- The reset input is asserted and released (rule R260). -/
  | reset
  deriving DecidableEq, Repr

/-- The engine's answer to a bus access (rules R61 and R62). -/
inductive Response where
  /-- OKAY to a read, with the register's value. -/
  | readOkay (data : Word)
  /-- OKAY to a write. -/
  | writeOkay
  /-- SLVERR to a read, with its data. -/
  | readSlverr (data : Word)
  /-- SLVERR to a write. -/
  | writeSlverr
  deriving DecidableEq, Repr

/-- The state. The fields from `lanes` to `irqen` are the engine's (rules R20 to R38). `response` and `pending` are the
model's own: the last answer on the port, and the inputs still to come (log entries 1 and 4). -/
structure State where
  /-- `A[0]` to `A[24]` (rule R20). -/
  lanes : Lanes
  /-- STATUS.PHASE (rule R31). -/
  phase : Phase
  /-- STATUS.FUNC (rule R32). -/
  func : Func
  /-- STATUS.BE (rules R32 and R67). -/
  be : Bool
  /-- STATUS.ERR (rule R33). -/
  err : ErrCode
  /-- STATUS.BUSY (rule R37). -/
  busy : Bool
  /-- STATUS.CURSOR (rule R34). -/
  cursor : BitVec 8
  /-- STATUS.OUTCNT (rule R35). -/
  outcnt : BitVec 8
  /-- DIN (rule R28). -/
  din : Word
  /-- DOUT (rule R29). -/
  dout : Word
  /-- IRQEN[1:0]: ERR_IE and RDY_IE. Bits [63:2] hold nothing (rule R38). -/
  irqen : BitVec 2
  /-- The answer to the last bus access, if there was one since reset (log entry 4). -/
  response : Option Response
  /-- The inputs to come, the next one first (log entry 1). -/
  pending : List Event
  deriving DecidableEq, Repr

/-- The reasons for which the machine stops with a fault: there are none. The engine refuses an access by SLVERR and a
command by an error code, and goes on after both (rules R62 and R232, and the head of 93_implementation_defined.md:
no item is stuck). -/
inductive Fault where
  deriving DecidableEq, Repr

/-- The reasons for which an instruction has no meaning. -/
inductive Refusal where
  /-- Raised by an arm of `exec` whose command has no meaning yet, with its mnemonic. Safe: the machine stops. -/
  | notModelled (mnemonic : String)
  deriving DecidableEq, Repr

/-- The all-zero state `A` (rule R47). -/
def zeroLanes : Lanes := Vector.replicate 25 0

/-- The machine right after reset: every value of rule R47, and nothing answered or pending on the port. -/
def State.reset : State where
  lanes := zeroLanes
  phase := .idle
  func := .sha3_224
  be := false
  err := .noError
  busy := false
  cursor := 0
  outcnt := 0
  din := 0
  dout := 0
  irqen := 0
  response := none
  pending := []

end Sys2Proof.Machine
end

