-- ==== Sys2Proof/Machine/Operands.lean ====
section
/-! DEFINITION. Operand forms: FUNC and its parameters, lanes by index and by coordinates, the state byte view, and the
byte order of DIN and DOUT. -/

namespace Sys2Proof.Machine

/-! ## FUNC (rules R7 and R95) -/

/-- The function an encoded FUNC selects; the reserved values 6 to 14 select none (rule R95). -/
def Func.ofCode? (c : BitVec 4) : Option Func :=
  match c.toNat with
  | 0 => some .sha3_224
  | 1 => some .sha3_256
  | 2 => some .sha3_384
  | 3 => some .sha3_512
  | 4 => some .shake128
  | 5 => some .shake256
  | 15 => some .raw
  | _ => none

/-- The encoding of FUNC (rule R95). -/
def Func.code : Func → BitVec 4
  | .sha3_224 => 0
  | .sha3_256 => 1
  | .sha3_384 => 2
  | .sha3_512 => 3
  | .shake128 => 4
  | .shake256 => 5
  | .raw => 15

/-- RATE in bytes (rule R7); RAW has none, written 0 (rule R201). -/
def Func.rate : Func → BitVec 8
  | .sha3_224 => 144
  | .sha3_256 => 136
  | .sha3_384 => 104
  | .sha3_512 => 72
  | .shake128 => 168
  | .shake256 => 136
  | .raw => 0

/-- `D`, the output length in bytes of the fixed-output functions FUNC 0 to 3; the XOFs and RAW have none (rule R7). -/
def Func.outputBytes : Func → Option Nat
  | .sha3_224 => some 28
  | .sha3_256 => some 32
  | .sha3_384 => some 48
  | .sha3_512 => some 64
  | .shake128 => none
  | .shake256 => none
  | .raw => none

/-- SUFFIX, the first padding byte (rule R7). RAW has none: the 0 here is read in no state that a run reaches, since
FINALIZE is not accepted in RAW (rule R236, log entry 10). -/
def Func.suffix : Func → Byte
  | .sha3_224 => 0x06
  | .sha3_256 => 0x06
  | .sha3_384 => 0x06
  | .sha3_512 => 0x06
  | .shake128 => 0x1F
  | .shake256 => 0x1F
  | .raw => 0

/-! ## Lanes (rules R10, R202 to R204) -/

/-- `A[l]`. There is no lane past 24: 0 (log entry 10). -/
def readLane (A : Lanes) (l : Nat) : Word := if h : l < 25 then A[l] else 0

/-- `A[l] <- v`. There is no lane past 24: no change (log entry 10). -/
def writeLane (A : Lanes) (l : Nat) (v : Word) : Lanes := if h : l < 25 then A.set l v else A

/-- `A[x,y]`, the lane at column x and row y: lane `x + 5*y` (rule R10). -/
def lane (A : Lanes) (x y : Fin 5) : Word := A[x.val + 5 * y.val]

/-- The state whose lane at column x and row y is `f x y`, written out in the order of the lane index (rule R10). -/
def ofCoords (f : Fin 5 → Fin 5 → Word) : Lanes :=
  #v[f 0 0, f 1 0, f 2 0, f 3 0, f 4 0,
     f 0 1, f 1 1, f 2 1, f 3 1, f 4 1,
     f 0 2, f 1 2, f 2 2, f 3 2, f 4 2,
     f 0 3, f 1 3, f 2 3, f 3 3, f 4 3,
     f 0 4, f 1 4, f 2 4, f 3 4, f 4 4]

/-! ## The state byte space (rules R60 and R66) -/

/-- `StateByte(i)`: byte `i mod 8` of lane `i div 8` (rule R66). There is no byte past 199: 0 (log entry 10). -/
def stateByte (A : Lanes) (i : Nat) : Byte := (readLane A (i / 8)).extractLsb' (8 * (i % 8)) 8

/-- `XorStateByte(i, b)` (rule R66). There is no byte past 199: no change (log entry 10). -/
def xorStateByte (A : Lanes) (i : Nat) (b : Byte) : Lanes :=
  writeLane A (i / 8) (readLane A (i / 8) ^^^ (b.setWidth 64 <<< (8 * (i % 8))))

/-! ## Byte order of DIN and DOUT (rules R67 to R69) -/

/-- The lowest bit of stream byte `k` in a 64-bit value (rule R67). -/
def byteShift (be : Bool) (k : Nat) : Nat := if be then 56 - 8 * k else 8 * k

/-- `InByte(k)` of the value `v` under BE (rule R68). -/
def inByte (be : Bool) (v : Word) (k : Nat) : Byte := v.extractLsb' (byteShift be k) 8

/-- `PutOutByte(w, k, b)` under BE (rule R69). -/
def putOutByte (be : Bool) (w : Word) (k : Nat) (b : Byte) : Word := w ||| (b.setWidth 64 <<< byteShift be k)

/-- The first `n` stream bytes of a value, in the order of `InByte` (rule R163). -/
def inBytes (be : Bool) (v : Word) (n : Nat) : List Byte := (List.range n).map (inByte be v)

/-- The bytes `bs` put at the places k, k + 1, … of `w`, in the order of `PutOutByte` (rule R169). -/
def putOutBytes (be : Bool) (w : Word) : Nat → List Byte → Word
  | _, [] => w
  | k, b :: bs => putOutBytes be (putOutByte be w k b) (k + 1) bs

/-- DOUT after a SQUEEZE that produced `bs`: the other bytes are 0 (rule R169). -/
def packOut (be : Bool) (bs : List Byte) : Word := putOutBytes be 0 0 bs

/-! ## Registers by offset (rules R26 and R61) -/

/-- The register at an offset of the window (rule R26). -/
def Reg.atOffset? (off : BitVec 8) : Option Reg :=
  match off.toNat with
  | 0x00 => some .cmd
  | 0x08 => some .status
  | 0x10 => some .din
  | 0x18 => some .dout
  | 0x20 => some .irqen
  | _ => none

/-- The register an access names: the access must be of 8 bytes, aligned, at a register's offset (rule R61). -/
def accessedReg? (off : BitVec 8) (size : Nat) : Option Reg :=
  if size = 8 ∧ off.toNat % 8 = 0 then Reg.atOffset? off else none

/-- The offset in the window of a bus address, for an address in the window (rules R60 and R73). -/
def windowOffset? (addr : Nat) : Option (BitVec 8) :=
  if Config.base ≤ addr ∧ addr < Config.base + Config.windowSize then some (BitVec.ofNat 8 (addr - Config.base)) else none

end Sys2Proof.Machine
end

