-- ==== Sys2Proof/Machine/Flags.lean ====
section
/-! DEFINITION. The STATUS fields: their encodings, the derived ones (RATE, IRQ) and the register's layout. -/

namespace Sys2Proof.Machine

/-- PHASE as a number (rule R31). -/
def Phase.code : Phase → BitVec 3
  | .idle => 0
  | .created => 1
  | .absorbing => 2
  | .squeezing => 3
  | .finished => 4
  | .raw => 5

/-- ERR as a number (rule R230). -/
def ErrCode.code : ErrCode → BitVec 4
  | .noError => 0
  | .config => 1
  | .sequence => 2
  | .illegal => 3
  | .busy => 4

/-- RATE: that of FUNC in the sponge phases, 0 in IDLE and RAW (rule R36). -/
def State.rate (s : State) : BitVec 8 :=
  match s.phase with
  | .idle => 0
  | .created => s.func.rate
  | .absorbing => s.func.rate
  | .squeezing => s.func.rate
  | .finished => s.func.rate
  | .raw => 0

/-- IRQEN bit 0, RDY_IE (rule R38). -/
def State.rdyIe (s : State) : Bool := s.irqen.getLsbD 0

/-- IRQEN bit 1, ERR_IE (rule R38). -/
def State.errIe (s : State) : Bool := s.irqen.getLsbD 1

/-- The level of the irq output, and STATUS.IRQ (rule R240). -/
def State.irq (s : State) : Bool := (s.rdyIe && !s.busy) || (s.errIe && s.err != .noError)

/-- The STATUS register, from bit 63 down to bit 0 (rule R30). -/
def State.status (s : State) : Word :=
  0#16 ++ s.rate ++ s.outcnt ++ s.cursor ++ 0#4 ++ s.err.code ++ s.func.code ++ bit s.be ++ s.phase.code ++ 0#6 ++ bit s.irq
    ++ bit s.busy

end Sys2Proof.Machine
end

