-- ==== Sys2Proof/Machine/Ops.lean ====
section
/-! DEFINITION. The operations the commands share: one update per field, recording an error and clearing it, completion,
and the checks at issue. -/

namespace Sys2Proof.Machine

/-! ## Field updates -/

/-- `A <- A'`. -/
def State.setLanes (v : Lanes) (s : State) : State := { s with lanes := v }
/-- `PHASE <- v`. -/
def State.setPhase (v : Phase) (s : State) : State := { s with phase := v }
/-- `FUNC <- v`. -/
def State.setFunc (v : Func) (s : State) : State := { s with func := v }
/-- `BE <- v`. -/
def State.setBe (v : Bool) (s : State) : State := { s with be := v }
/-- `ERR <- v`. -/
def State.setErr (v : ErrCode) (s : State) : State := { s with err := v }
/-- `BUSY <- v`. -/
def State.setBusy (v : Bool) (s : State) : State := { s with busy := v }
/-- `CURSOR <- v`. -/
def State.setCursor (v : BitVec 8) (s : State) : State := { s with cursor := v }
/-- `OUTCNT <- v`. -/
def State.setOutcnt (v : BitVec 8) (s : State) : State := { s with outcnt := v }
/-- `DIN <- v`. -/
def State.setDin (v : Word) (s : State) : State := { s with din := v }
/-- `DOUT <- v`. -/
def State.setDout (v : Word) (s : State) : State := { s with dout := v }
/-- `IRQEN[1:0] <- v`. -/
def State.setIrqen (v : BitVec 2) (s : State) : State := { s with irqen := v }
/-- The answer on the port. -/
def State.respond (v : Response) (s : State) : State := { s with response := some v }
/-- The inputs to come. -/
def State.setPending (v : List Event) (s : State) : State := { s with pending := v }

/-- `BUSY <- 1` when `perms` permutations ran and that is at least one; else BUSY stays (rule R264). -/
def State.markBusy (perms : Nat) (s : State) : State := if 0 < perms then s.setBusy true else s

/-! ## Taking an error and returning from it -/

/-- `raise Error(code)`: record the code, drop the command (rules R232 and R242). -/
def raiseError (code : ErrCode) (s : State) : State := s.setErr code

/-- The return from an error: `ERR <- 0`, nothing restored or replayed (rules R208 and R243). -/
def clearError (s : State) : State := s.setErr .noError

/-! ## Completion and reset -/

/-- A turn of the engine: completion clears BUSY, and is enabled exactly when BUSY = 1 (rule R265). -/
def engineTurn (s : State) : State := if s.busy then s.setBusy false else s

/-- The reset input: every piece of the engine's state takes its reset value (rule R260). The inputs to come are the
host's, not the engine's: they stay (log entry 9). -/
def applyReset (s : State) : State := State.reset.setPending s.pending

/-! ## The checks at issue (rule R231) -/

/-- The commands accepted while BUSY = 1: NOP and CLRERR (rules R206, R208 and R231). -/
def acceptedWhileBusy : Opcode → Bool
  | .nop => true
  | .init => false
  | .absorb => false
  | .finalize => false
  | .squeeze => false
  | .finish => false
  | .permute => false
  | .laneWr => false
  | .laneRd => false
  | .clrerr => true

/-- `Allowed(op)`: the phases in which a command is accepted (rule R236). -/
def allowedIn (op : Opcode) (p : Phase) : Bool :=
  match op with
  | .nop => true
  | .init => true
  | .absorb => p == .created || p == .absorbing
  | .finalize => p == .created || p == .absorbing
  | .squeeze => p == .squeezing
  | .finish => p == .squeezing
  | .permute => p == .raw
  | .laneWr => p == .raw
  | .laneRd => p == .raw
  | .clrerr => true

/-- A SQUEEZE of n bytes asks a fixed-output function for more than D bytes (rules R170 and R231). -/
def State.overrun (n : Nat) (s : State) : Bool :=
  match s.func.outputBytes with
  | some d => d < s.outcnt.toNat + n
  | none => false

/-- The error of a command, by the first check that fails: `op` is the opcode, none for a reserved one; `v` the verdict
on the operands; `overrun` the fixed-output limit (rule R231, 1st to 6th check). -/
def issueError (op : Option Opcode) (v : Verdict) (overrun : Bool) (s : State) : Option ErrCode :=
  match op with
  | none => some .illegal
  | some op =>
    if s.busy && !acceptedWhileBusy op then some .busy
    else match v with
      | .illegalOperand => some .illegal
      | .badConfig => some .config
      | .ok => if !allowedIn op s.phase || overrun then some .sequence else none

/-- IssueCommand for every word but the exact CLRERR: nothing under the error lock, else the first error or else the
command's effect (rules R231 and R233). -/
def issue (op : Option Opcode) (v : Verdict) (overrun : Bool) (effect : State → State) (s : State) : State :=
  if s.err = .noError then
    match issueError op v overrun s with
    | some code => raiseError code s
    | none => effect s
  else s

end Sys2Proof.Machine
end

