-- ==== Sys2Proof/Machine/Control.lean ====
section
/-! DEFINITION. The control commands NOP and CLRERR (42_raw_and_control.md). -/

namespace Sys2Proof.Machine

/-- NOP: no effect in any state (rules R206 and R233). -/
def execNop (s : State) : Host.Outcome State Fault Refusal :=
  .next (issue (some .nop) .ok false id s)

/-- CLRERR: the one command with an effect under the error lock (rules R208 and R233). -/
def execClrerr (s : State) : Host.Outcome State Fault Refusal :=
  .next (if s.err = .noError then issue (some .clrerr) .ok false clearError s else clearError s)

end Sys2Proof.Machine
end

