-- ==== Sys2Proof/Machine/Permutation.lean ====
section
/-! DEFINITION. Keccak-p[1600,24]: lane rotation, the five step mappings, the constant tables and the permutation. -/

namespace Sys2Proof.Machine

/-! ## Lane rotation -/

/-- `ROT64(v, n)`: bit z moves to bit (z + n) mod 64; no shift by 64 occurs (rule R121). -/
def rot64 (v : Word) (n : Nat) : Word := if n = 0 then v else (v <<< n) ||| (v >>> (64 - n))

/-! ## The step mappings -/

/-- The column parity C[x] of theta (rule R124). -/
def thetaC (A : Lanes) (x : Fin 5) : Word := lane A x 0 ^^^ lane A x 1 ^^^ lane A x 2 ^^^ lane A x 3 ^^^ lane A x 4

/-- D[x] of theta: C[(x-1) mod 5] ^ ROT64(C[(x+1) mod 5], 1); `Fin 5` counts modulo 5 (rule R124). -/
def thetaD (A : Lanes) (x : Fin 5) : Word := thetaC A (x - 1) ^^^ rot64 (thetaC A (x + 1)) 1

/-- Theta (rule R124). -/
def theta (A : Lanes) : Lanes := ofCoords fun x y => lane A x y ^^^ thetaD A x

/-- The rotation offsets, rows of y with columns x = 0 to 4 (rule R125). -/
def rhoTable : List Nat :=
  [ 0,  1, 62, 28, 27,
   36, 44,  6, 55, 20,
    3, 10, 43, 25, 39,
   41, 45, 15, 21,  8,
   18,  2, 61, 56, 14]

/-- RHO[x][y] (rule R125). -/
def rhoOffset (x y : Fin 5) : Nat := rhoTable.getD (x.val + 5 * y.val) 0

/-- Rho (rule R125). -/
def rho (A : Lanes) : Lanes := ofCoords fun x y => rot64 (lane A x y) (rhoOffset x y)

/-- Pi: A'[x,y] = A[(x + 3*y) mod 5, x] (rule R127). -/
def pi (A : Lanes) : Lanes := ofCoords fun x y => lane A (x + 3 * y) x

/-- Chi: A'[x,y] = A[x,y] ^ (~A[x+1,y] & A[x+2,y]), x modulo 5 (rule R128). -/
def chi (A : Lanes) : Lanes := ofCoords fun x y => lane A x y ^^^ (~~~lane A (x + 1) y &&& lane A (x + 2) y)

/-- The round constants as rule R130 prints them: the row of i holds RC[i] and RC[i + 12] (rule R130). -/
def rcTable : List (Word × Word) :=
  [(0x0000000000000001, 0x000000008000808B),
   (0x0000000000008082, 0x800000000000008B),
   (0x800000000000808A, 0x8000000000008089),
   (0x8000000080008000, 0x8000000000008003),
   (0x000000000000808B, 0x8000000000008002),
   (0x0000000080000001, 0x8000000000000080),
   (0x8000000080008081, 0x000000000000800A),
   (0x8000000000008009, 0x800000008000000A),
   (0x000000000000008A, 0x8000000080008081),
   (0x0000000000000088, 0x8000000000008080),
   (0x0000000080008009, 0x0000000080000001),
   (0x000000008000000A, 0x8000000080008008)]

/-- RC[i] for a round index i in 0..23: the left column below 12, the right one from 12 on (rule R130). -/
def roundConstant (i : Nat) : Word :=
  if i < 12 then (rcTable.getD i (0, 0)).1 else (rcTable.getD (i - 12) (0, 0)).2

/-- Iota: A'[0,0] = A[0,0] ^ RC[i], every other lane as it was (rule R129). -/
def iota (i : Nat) (A : Lanes) : Lanes := A.set 0 (A[0] ^^^ roundConstant i)

/-! ## Rounds and the permutation -/

/-- Rnd(A, i): theta, rho, pi, chi and iota, in this order (rule R132). -/
def round (i : Nat) (A : Lanes) : Lanes := iota i (chi (pi (rho (theta A))))

/-- `KeccakP`: 24 rounds, with the round indices 0 to 23 in increasing order (rule R133). -/
def keccakP (A : Lanes) : Lanes := (List.range 24).foldl (fun A i => round i A) A

/-! ## Where the tables come from: the recurrences the spec gives as their evidence -/

/-- The coordinates the rho recurrence visits: (1,0), then (y, (2*x + 3*y) mod 5) (rule R126). -/
def rhoWalk : Nat → Fin 5 × Fin 5
  | 0 => (1, 0)
  | t + 1 => ((rhoWalk t).2, 2 * (rhoWalk t).1 + 3 * (rhoWalk t).2)

/-- The offset the rho recurrence gives at step t: the triangular number (t+1)(t+2)/2 mod 64 (rule R126). -/
def rhoTriangular (t : Nat) : Nat := (t + 1) * (t + 2) / 2 % 64

/-- One step of the round-constant LFSR: R[0..7] is shifted to R[1..8], and R[8] is XORed into R[0], R[4], R[5] and
R[6]; bit i of the vector is R[i] (rule R131). -/
def lfsrStep (r : BitVec 8) : BitVec 8 := (r <<< 1) ^^^ (if r.getLsbD 7 then 0x71 else 0)

/-- The LFSR after t steps from R = [1,0,0,0,0,0,0,0] (rule R131). -/
def lfsr : Nat → BitVec 8
  | 0 => 1
  | t + 1 => lfsrStep (lfsr t)

/-- rc(t) (rule R131). -/
def rcBit (t : Nat) : Bool := if t % 255 = 0 then true else (lfsr (t % 255)).getLsbD 0

/-- The round constant the LFSR gives: rc(j + 7*i) at bit 2^j - 1, for j in 0..6 (rule R131). -/
def rcDerived (i : Nat) : Word :=
  (List.range 7).foldl (fun w j => w + ((bit (rcBit (j + 7 * i))).setWidth 64 <<< (2 ^ j - 1))) 0

end Sys2Proof.Machine
end

