-- ==== Sys2Proof/Machine/Raw.lean ====
section
/-! DEFINITION. The raw-permutation commands PERMUTE, LANE_WR and LANE_RD (42_raw_and_control.md). -/

namespace Sys2Proof.Machine

/-- The effect of PERMUTE (rule R200). -/
def permuteEffect (s : State) : State := s.setLanes (keccakP s.lanes) |>.setBusy true

/-- PERMUTE (rule R200). -/
def execPermute (s : State) : Host.Outcome State Fault Refusal :=
  .next (issue (some .permute) .ok false permuteEffect s)

/-- The effect of LANE_WR: the lane takes DIN's value, whatever BE is (rules R70 and R202). -/
def laneWrEffect (l : Nat) (s : State) : State := s.setLanes (writeLane s.lanes l s.din)

/-- LANE_WR (rule R202). -/
def execLaneWr (idx : BitVec 5) (s : State) : Host.Outcome State Fault Refusal :=
  .next (issue (some .laneWr) (laneVerdict idx) false (laneWrEffect idx.toNat) s)

/-- The effect of LANE_RD: DOUT takes the lane's value, whatever BE is (rules R70 and R204). -/
def laneRdEffect (l : Nat) (s : State) : State := s.setDout (readLane s.lanes l)

/-- LANE_RD (rule R204). -/
def execLaneRd (idx : BitVec 5) (s : State) : Host.Outcome State Fault Refusal :=
  .next (issue (some .laneRd) (laneVerdict idx) false (laneRdEffect idx.toNat) s)

end Sys2Proof.Machine
end

