-- ==== Sys2Proof/Machine/Sponge.lean ====
section
/-! DEFINITION. The sponge commands INIT, ABSORB, FINALIZE, SQUEEZE and FINISH (41_sponge.md). -/

namespace Sys2Proof.Machine

/-! ## INIT -/

/-- The effect of INIT: a fresh zero state under the selected function (rule R161). -/
def initEffect (f : Func) (be : Bool) (s : State) : State :=
  s.setLanes zeroLanes |>.setFunc f |>.setBe be |>.setPhase (if f = .raw then .raw else .created)
    |>.setCursor 0 |>.setOutcnt 0 |>.setDout 0

/-- INIT (rule R161). A reserved FUNC selects no function; its verdict makes `issue` raise CONFIG before the effect. -/
def execInit (func : BitVec 4) (be : Bool) (s : State) : Host.Outcome State Fault Refusal :=
  match Func.ofCode? func with
  | some f => .next (issue (some .init) (funcVerdict func) false (initEffect f be) s)
  | none => .next (issue (some .init) (funcVerdict func) false id s)

/-! ## The byte loops of ABSORB and SQUEEZE -/

/-- What the byte loops of ABSORB and SQUEEZE carry: `A`, `CURSOR` and `perm` (rules R163 and R169). -/
structure Transfer where
  lanes : Lanes
  cursor : BitVec 8
  perms : Nat
  deriving DecidableEq, Repr

/-- One pass of ABSORB's loop: XOR a byte at CURSOR, advance, and permute the moment CURSOR reaches RATE (rule R163). -/
def absorbByte (rate : BitVec 8) (t : Transfer) (b : Byte) : Transfer :=
  if t.cursor + 1 = rate then ⟨keccakP (xorStateByte t.lanes t.cursor.toNat b), 0, t.perms + 1⟩
  else ⟨xorStateByte t.lanes t.cursor.toNat b, t.cursor + 1, t.perms⟩

/-- ABSORB's loop over the bytes in their order (rule R163). -/
def absorbBytes (rate : BitVec 8) (t : Transfer) (bs : List Byte) : Transfer := bs.foldl (absorbByte rate) t

/-- The lazy permutation of SQUEEZE: only when a byte is asked for and the block is used up (rule R169). -/
def refill (rate : BitVec 8) (t : Transfer) : Transfer :=
  if t.cursor = rate then ⟨keccakP t.lanes, 0, t.perms + 1⟩ else t

/-- SQUEEZE's loop for n bytes: the bytes in their order, and what is carried (rule R169). -/
def squeezeBytes (rate : BitVec 8) : Nat → Transfer → List Byte × Transfer
  | 0, t => ([], t)
  | n + 1, t =>
    let u := refill rate t
    let r := squeezeBytes rate n { u with cursor := u.cursor + 1 }
    (stateByte u.lanes u.cursor.toNat :: r.1, r.2)

/-- The loops' start: the state's lanes and cursor, no permutation yet. -/
def State.transfer (s : State) : Transfer := ⟨s.lanes, s.cursor, 0⟩

/-- The loops' end: lanes and cursor written back. -/
def State.setTransfer (t : Transfer) (s : State) : State := s.setLanes t.lanes |>.setCursor t.cursor

/-! ## ABSORB -/

/-- The effect of ABSORB (rule R163). -/
def absorbEffect (n : Nat) (s : State) : State :=
  let t := absorbBytes s.rate s.transfer (inBytes s.be s.din n)
  s.setTransfer t |>.setPhase .absorbing |>.markBusy t.perms

/-- ABSORB (rule R163). -/
def execAbsorb (n : BitVec 4) (s : State) : Host.Outcome State Fault Refusal :=
  .next (issue (some .absorb) (countVerdict n) false (absorbEffect n.toNat) s)

/-! ## FINALIZE -/

/-- The state with both padding bytes XORed in, before the permutation (rules R166 and R167). -/
def padLanes (s : State) : Lanes := xorStateByte (xorStateByte s.lanes s.cursor.toNat s.func.suffix) (s.rate.toNat - 1) 0x80

/-- The effect of FINALIZE (rule R166). -/
def finalizeEffect (s : State) : State :=
  s.setLanes (keccakP (padLanes s)) |>.setCursor 0 |>.setPhase .squeezing |>.setBusy true

/-- FINALIZE (rule R166). -/
def execFinalize (s : State) : Host.Outcome State Fault Refusal :=
  .next (issue (some .finalize) .ok false finalizeEffect s)

/-! ## SQUEEZE and FINISH -/

/-- EnterFinished(): zero the state, keep OUTCNT, FUNC, BE and DOUT (rule R173). -/
def enterFinished (s : State) : State := s.setLanes zeroLanes |>.setCursor 0 |>.setPhase .finished

/-- The output count of a SQUEEZE of n bytes: OUTCNT grows for the fixed-output functions only, and D ends the output
(rules R35 and R169). -/
def countOutput (n : Nat) (s : State) : State :=
  match s.func.outputBytes with
  | some d =>
    let s' := s.setOutcnt (s.outcnt + BitVec.ofNat 8 n)
    if s'.outcnt.toNat = d then enterFinished s' else s'
  | none => s

/-- The effect of SQUEEZE (rule R169). -/
def squeezeEffect (n : Nat) (s : State) : State :=
  let r := squeezeBytes s.rate n s.transfer
  countOutput n (s.setTransfer r.2 |>.setDout (packOut s.be r.1)) |>.markBusy r.2.perms

/-- SQUEEZE (rules R169 and R170). -/
def execSqueeze (n : BitVec 4) (s : State) : Host.Outcome State Fault Refusal :=
  .next (issue (some .squeeze) (countVerdict n) (s.overrun n.toNat) (squeezeEffect n.toNat) s)

/-- FINISH (rule R172). -/
def execFinish (s : State) : Host.Outcome State Fault Refusal :=
  .next (issue (some .finish) .ok false enterFinished s)

end Sys2Proof.Machine
end

