-- ==== Sys2Proof/Machine/Dispatch.lean ====
section
/-! DEFINITION. One arm per command. -/

namespace Sys2Proof.Machine

def exec (i : Instr) (s : State) : Host.Outcome State Fault Refusal :=
  match i with
  | .nop => Sys2Proof.Machine.execNop s
  | .init func be => Sys2Proof.Machine.execInit func be s
  | .absorb n => Sys2Proof.Machine.execAbsorb n s
  | .finalize => Sys2Proof.Machine.execFinalize s
  | .squeeze n => Sys2Proof.Machine.execSqueeze n s
  | .finish => Sys2Proof.Machine.execFinish s
  | .permute => Sys2Proof.Machine.execPermute s
  | .laneWr idx => Sys2Proof.Machine.execLaneWr idx s
  | .laneRd idx => Sys2Proof.Machine.execLaneRd idx s
  | .clrerr => Sys2Proof.Machine.execClrerr s

end Sys2Proof.Machine
end

