-- ==== Sys2Proof/Machine/Bus.lean ====
section
/-! DEFINITION. The bus port: command issue, register reads and writes, and the delivery of one input. -/

namespace Sys2Proof.Machine

/-- IssueCommand(w): the decoded command runs; a word that is no command is dropped with its error (rules R27, R96 and
R231). -/
def issueCommand (w : Word) (s : State) : Host.Outcome State Fault Refusal :=
  match decode w with
  | .command i => exec i s
  | .illegalOpcode => .next (issue none .ok false id s)
  | .illegalOperand op => .next (issue (some op) .illegalOperand false id s)
  | .badConfig => .next (issue (some .init) .badConfig false id s)

/-- The value a read of a register returns (rules R27, R61 and R266). -/
def readReg (r : Reg) (s : State) : Word :=
  match r with
  | .cmd => 0
  | .status => s.status
  | .din => s.din
  | .dout => if s.busy then 0 else s.dout
  | .irqen => s.irqen.setWidth 64

/-- `MemRead(off, size)`: no read changes the engine; one that is not accepted gets SLVERR with data 0 (rules R61, R62
and R64). -/
def busRead (off : BitVec 8) (size : Nat) (s : State) : State :=
  match accessedReg? off size with
  | some r => s.respond (.readOkay (readReg r s))
  | none => s.respond (.readSlverr 0)

/-- A write to a register that accepts it (rules R28, R38 and R61); the others get SLVERR and no effect (rule R62). -/
def writeReg (r : Reg) (v : Word) (s : State) : Host.Outcome State Fault Refusal :=
  match r with
  | .cmd => issueCommand v (s.respond .writeOkay)
  | .status => .next (s.respond .writeSlverr)
  | .din => .next ((s.respond .writeOkay).setDin v)
  | .dout => .next (s.respond .writeSlverr)
  | .irqen => .next ((s.respond .writeOkay).setIrqen (v.extractLsb' 0 2))

/-- `MemWrite(off, size, v)` (rules R61 and R62). -/
def busWrite (off : BitVec 8) (size : Nat) (v : Word) (s : State) : Host.Outcome State Fault Refusal :=
  match accessedReg? off size with
  | some r => writeReg r v s
  | none => .next (s.respond .writeSlverr)

/-- One input takes its whole effect (rules R12, R40 and R74). -/
def deliver (e : Event) (s : State) : Host.Outcome State Fault Refusal :=
  match e with
  | .read off size => .next (busRead off size s)
  | .write off size v => busWrite off size v s
  | .engineTurn => .next (engineTurn s)
  | .reset => .next (applyReset s)

/-- The write to CMD that carries a word of the opcode table: `nbits` bits, the bits above 0. -/
def commandWrite (nbits w : Nat) : Event := .write 0x00 8 (BitVec.ofNat 64 (w % 2 ^ nbits))

end Sys2Proof.Machine
end

