-- ==== Sys2Proof/Machine/Step.lean ====
section
/-! DEFINITION. One step of the machine. -/

namespace Sys2Proof.Machine

/-- One step: the next input takes its effect; with no input left the engine takes its turn, so every BUSY period ends
(rules R74, R265 and R271; log entries 1 and 2). -/
def step (s : State) : Host.Outcome State Fault Refusal :=
  match s.pending with
  | [] => .next (engineTurn s)
  | e :: rest => deliver e (s.setPending rest)

/-- The state whose next input is the write of the given word to CMD: the engine fetches nothing, every command arrives
as such a write (rules R24 and R27; log entry 1). -/
def State.withFetchWord (s : State) (nbits w : Nat) : State := s.setPending (commandWrite nbits w :: s.pending)

end Sys2Proof.Machine
end

