-- ==== Sys2Proof/Machine/Session.lean ====
section
/-! DEFINITION. The host's side: the host statements and pseudo-instructions of rule R101, what a sequence of inputs
makes the engine answer, the command sequences of the source's API (rules R175 and R176), and the one-shot reference
function they compute (rules R162 and R174). -/

namespace Sys2Proof.Machine

/-! ## Host statements -/

/-- The offset of a register (rule R26). -/
def Reg.offset : Reg → BitVec 8
  | .cmd => 0x00
  | .status => 0x08
  | .din => 0x10
  | .dout => 0x18
  | .irqen => 0x20

/-- `wr REG, v` (rule R101). -/
def wr (r : Reg) (v : Word) : Event := .write r.offset 8 v

/-- `rd REG` (rule R101). -/
def rd (r : Reg) : Event := .read r.offset 8

/-- `cmd <command>` (rule R101). -/
def cmd (i : Instr) : Event := wr .cmd (encode i)

/-- `wait`, which is one completion step (rule R101 and the head of 95_test_vectors.md). -/
def wait : List Event := [.engineTurn]

/-- `absorb n, v` (rule R101). -/
def absorbStmt (n : BitVec 4) (v : Word) : List Event := [wr .din v, cmd (.absorb n)] ++ wait

/-- `squeeze n` (rule R101). -/
def squeezeStmt (n : BitVec 4) : List Event := [cmd (.squeeze n)] ++ wait ++ [rd .dout]

/-- `lane_set i, v` (rule R101). -/
def laneSet (i : BitVec 5) (v : Word) : List Event := [wr .din v, cmd (.laneWr i)]

/-- `lane_get i` (rule R101). -/
def laneGet (i : BitVec 5) : List Event := [cmd (.laneRd i), rd .dout]

/-- A bus access at an address of the host's bus; an address outside the window does not reach the engine (rules R60 and
R73, log entry 6). -/
def hostRead (addr size : Nat) : List Event :=
  match windowOffset? addr with
  | some off => [.read off size]
  | none => []

/-- As `hostRead`, for a write. -/
def hostWrite (addr size : Nat) (v : Word) : List Event :=
  match windowOffset? addr with
  | some off => [.write off size v]
  | none => []

/-- The name of a function in the command syntax (rule R100). -/
def Func.name : Func → String
  | .sha3_224 => "SHA3_224"
  | .sha3_256 => "SHA3_256"
  | .sha3_384 => "SHA3_384"
  | .sha3_512 => "SHA3_512"
  | .shake128 => "SHAKE128"
  | .shake256 => "SHAKE256"
  | .raw => "RAW"

/-- A command's line in the command syntax; a reserved FUNC has none (rule R100). -/
def assembly (i : Instr) : Option String :=
  match i with
  | .nop => some "NOP"
  | .init func be => (Func.ofCode? func).map fun f => "INIT " ++ f.name ++ (if be then ", BE" else "")
  | .absorb n => some ("ABSORB " ++ toString n.toNat)
  | .finalize => some "FINALIZE"
  | .squeeze n => some ("SQUEEZE " ++ toString n.toNat)
  | .finish => some "FINISH"
  | .permute => some "PERMUTE"
  | .laneWr idx => some ("LANE_WR " ++ toString idx.toNat)
  | .laneRd idx => some ("LANE_RD " ++ toString idx.toNat)
  | .clrerr => some "CLRERR"

/-! ## Running inputs -/

/-- The answer an input got, when it is a bus access. -/
def answers (e : Event) (after : State) : List Response :=
  match e with
  | .read _ _ => after.response.toList
  | .write _ _ _ => after.response.toList
  | .engineTurn => []
  | .reset => []

/-- The inputs delivered in order: the last state and the answers in order; none if the machine stopped (rule R74). -/
def serve : List Event → State → Option (State × List Response)
  | [], s => some (s, [])
  | e :: es, s =>
    match deliver e s with
    | .next t => (serve es t).map fun r => (r.1, answers e t ++ r.2)
    | .fault _ => none
    | .refused _ => none

/-- The value an answer carries, when it answers an accepted read. -/
def readData : Response → Option Word
  | .readOkay v => some v
  | .writeOkay => none
  | .readSlverr _ => none
  | .writeSlverr => none

/-! ## Sessions (rules R175 and R176) -/

/-- A session: INIT, one `absorb` for each piece, FINALIZE and `wait`, one `squeeze` for each count (rule R175). -/
def session (f : Func) (be : Bool) (pieces : List (BitVec 4 × Word)) (counts : List (BitVec 4)) : List Event :=
  [cmd (.init f.code be)] ++ pieces.flatMap (fun p => absorbStmt p.1 p.2) ++ ([cmd .finalize] ++ wait)
    ++ counts.flatMap squeezeStmt

/-- The message the pieces carry, in InByte order (rule R175). -/
def message (be : Bool) (pieces : List (BitVec 4 × Word)) : List Byte :=
  pieces.flatMap fun p => inBytes be p.2 p.1.toNat

/-- The output bytes of the DOUT reads of a session, each SQUEEZE's in PutOutByte order (rule R175). -/
def output (be : Bool) (counts : List (BitVec 4)) (rs : List Response) : List Byte :=
  ((rs.filterMap readData).zip counts).flatMap fun p => inBytes be p.1 p.2.toNat

/-- How many bytes a session asks for. -/
def requested (counts : List (BitVec 4)) : Nat := (counts.map BitVec.toNat).sum

/-- A list cut into pieces of `n` bytes, the last one shorter if need be. -/
def chunks (n : Nat) (bs : List Byte) : List (List Byte) :=
  (List.range ((bs.length + n - 1) / n)).map fun j => (bs.drop (n * j)).take n

/-- The source's one-shot functions as host programs: the message in pieces of 8 bytes, the output in pieces of 8
(rule R176; an XOF session is closed by FINISH after it). -/
def oneShot (f : Func) (be : Bool) (m : List Byte) (outLen : Nat) : List Event :=
  session f be ((chunks 8 m).map fun c => (BitVec.ofNat 4 c.length, packOut be c))
    ((chunks 8 (List.replicate outLen 0)).map fun c => BitVec.ofNat 4 c.length)
    ++ (if f.outputBytes.isNone then [cmd .finish] else [])

/-! ## The reference function (rules R162 and R174) -/

/-- PadBytes: the suffix and the padding after a message of `len` bytes (rule R162). -/
def padBytes (f : Func) (len : Nat) : List Byte :=
  let q := f.rate.toNat - len % f.rate.toNat
  if q = 1 then [f.suffix ^^^ 0x80] else [f.suffix] ++ List.replicate (q - 2) 0x00 ++ [0x80]

/-- `S byte i ^= B[i]` for every byte of a block (rule R174). -/
def xorBlock (S : Lanes) (block : List Byte) : Lanes := block.zipIdx.foldl (fun A p => xorStateByte A p.2 p.1) S

/-- The absorbing loop of the reference, over the blocks of the padded message (rule R174). -/
def absorbBlocks (rate : Nat) (padded : List Byte) : Lanes :=
  (chunks rate padded).foldl (fun S block => keccakP (xorBlock S block)) zeroLanes

/-- The rate region: state bytes 0 to rate - 1 (rule R22). -/
def rateRegion (rate : Nat) (S : Lanes) : List Byte := (List.range rate).map (stateByte S)

/-- The first `blocks` blocks of the squeezing loop, a permutation between two of them (rule R174). -/
def squeezeBlocks (rate : Nat) : Nat → Lanes → List Byte
  | 0, _ => []
  | blocks + 1, S => rateRegion rate S ++ squeezeBlocks rate blocks (keccakP S)

/-- Sponge_f(M, L) (rule R174): L/RATE + 1 blocks hold at least L bytes, and what the loop produces past L is cut off. -/
def spongeRef (f : Func) (m : List Byte) (outLen : Nat) : List Byte :=
  (squeezeBlocks f.rate.toNat (outLen / f.rate.toNat + 1)
    (absorbBlocks f.rate.toNat (m ++ padBytes f m.length))).take outLen

end Sys2Proof.Machine
end

