-- ==== Sys2Proof/Safety.lean ====
section
/-! DEFINITION. What a safe run is, and the invariant of the session state. -/

namespace Sys2Proof

/-- The machine runs on from `s` for ever: no number of steps ends in a fault or a refusal. -/
def Safe (s : Machine.State) : Prop := ∀ n, ∃ t, core.run n s = .next t

namespace Machine

/-- OUTCNT in SQUEEZING: below D and equal to CURSOR for a fixed-output function, 0 otherwise (rules R35, R169, R170). -/
def State.outcntSqueezing (s : State) : Bool :=
  match s.func.outputBytes with
  | some d => s.outcnt.toNat < d && s.cursor == s.outcnt
  | none => s.outcnt == 0

/-- OUTCNT in FINISHED: at most D for a fixed-output function, 0 otherwise (rule R35). -/
def State.outcntFinished (s : State) : Bool :=
  match s.func.outputBytes with
  | some d => s.outcnt.toNat ≤ d
  | none => s.outcnt == 0

/-- The invariant of the session state, phase by phase (rules R32, R34, R35 and R46). -/
structure State.Inv (s : State) : Prop where
  /-- In IDLE every field of the session has its reset value. -/
  idle : s.phase = .idle → s.lanes = zeroLanes ∧ s.cursor = 0 ∧ s.outcnt = 0 ∧ s.dout = 0 ∧ s.func = .sha3_224 ∧
    s.be = false ∧ s.busy = false
  /-- In CREATED the state is zero. -/
  created : s.phase = .created → s.lanes = zeroLanes ∧ s.cursor = 0 ∧ s.outcnt = 0 ∧ s.dout = 0 ∧ s.func ≠ .raw ∧
    s.busy = false
  /-- In ABSORBING the block is never full. -/
  absorbing : s.phase = .absorbing → s.cursor.toNat < s.rate.toNat ∧ s.outcnt = 0 ∧ s.dout = 0 ∧ s.func ≠ .raw
  /-- In SQUEEZING the cursor is in the block or at its end. -/
  squeezing : s.phase = .squeezing → s.cursor.toNat ≤ s.rate.toNat ∧ s.outcntSqueezing = true ∧ s.func ≠ .raw
  /-- In FINISHED the state is zero. -/
  finished : s.phase = .finished → s.lanes = zeroLanes ∧ s.cursor = 0 ∧ s.outcntFinished = true ∧ s.func ≠ .raw ∧
    s.busy = false
  /-- In RAW there is no cursor and no output count. -/
  raw : s.phase = .raw → s.cursor = 0 ∧ s.outcnt = 0 ∧ s.func = .raw

/-- No error is recorded and no command is completing: the next command is judged by its own checks alone. -/
def State.Ready (s : State) : Prop := s.err = .noError ∧ s.busy = false

end Machine

end Sys2Proof
end

