-- ==== Sys2Proof/Certificates/Slice0/Obligations.lean ====
section
/-! DEFINITION. The statements about the model, for the provers. Each docstring names the rules of spec/ it states. -/

open Sys2Proof Sys2Proof.Machine

namespace Sys2Proof.Machine

/-! ## Words the statements share -/

/-- The match column of rule R99. -/
def tableMatch : Opcode → Word
  | .nop => 0x0000000000000000
  | .init => 0x0000000000000001
  | .absorb => 0x0000000000000002
  | .finalize => 0x0000000000000003
  | .squeeze => 0x0000000000000004
  | .finish => 0x0000000000000005
  | .permute => 0x0000000000000006
  | .laneWr => 0x0000000000000007
  | .laneRd => 0x0000000000000008
  | .clrerr => 0x0000000000000009

/-- The mask column of rule R99. -/
def tableMask : Opcode → Word
  | .nop => 0xFFFFFFFFFFFFFFFF
  | .init => 0xFFFFFFFFFFFFE0FF
  | .absorb => 0xFFFFFFFFFFFFF0FF
  | .finalize => 0xFFFFFFFFFFFFFFFF
  | .squeeze => 0xFFFFFFFFFFFFF0FF
  | .finish => 0xFFFFFFFFFFFFFFFF
  | .permute => 0xFFFFFFFFFFFFFFFF
  | .laneWr => 0xFFFFFFFFFFFFE0FF
  | .laneRd => 0xFFFFFFFFFFFFE0FF
  | .clrerr => 0xFFFFFFFFFFFFFFFF

/-- The legal field values of rule R93, as a condition on the word: FUNC and N are w[11:8], IDX is w[12:8]. -/
def tableLegal (op : Opcode) (w : Word) : Prop :=
  match op with
  | .init => w.toNat / 256 % 16 ∈ [0, 1, 2, 3, 4, 5, 15]
  | .absorb => w.toNat / 256 % 16 ≤ 8
  | .squeeze => w.toNat / 256 % 16 ≤ 8
  | .laneWr => w.toNat / 256 % 32 ≤ 24
  | .laneRd => w.toNat / 256 % 32 ≤ 24
  | .nop => True
  | .finalize => True
  | .finish => True
  | .permute => True
  | .clrerr => True

/-- `Allowed(op)` as the rows of rule R236. -/
def phaseRow : Opcode → List Phase
  | .nop => [.idle, .created, .absorbing, .squeezing, .finished, .raw]
  | .init => [.idle, .created, .absorbing, .squeezing, .finished, .raw]
  | .absorb => [.created, .absorbing]
  | .finalize => [.created, .absorbing]
  | .squeeze => [.squeezing]
  | .finish => [.squeezing]
  | .permute => [.raw]
  | .laneWr => [.raw]
  | .laneRd => [.raw]
  | .clrerr => [.idle, .created, .absorbing, .squeezing, .finished, .raw]

/-- How a command that BUSY stops is refused, in the words its rule gives under "Errors": with OP = `code` and no error
recorded, BUSY while BUSY = 1; else ILLEGAL when w[63:8] is not one of the legal values; else SEQUENCE outside its
phases. -/
def RefusesWords (code : BitVec 8) (legal : Nat → Prop) (phases : List Phase) : Prop :=
  ∀ (s : State) (w : Word), s.err = .noError → w.extractLsb' 0 8 = code →
    (s.busy = true → issueCommand w s = .next { s with err := .busy }) ∧
    (s.busy = false → ¬ legal (w.toNat / 256) → issueCommand w s = .next { s with err := .illegal }) ∧
    (s.busy = false → legal (w.toNat / 256) → s.phase ∉ phases → issueCommand w s = .next { s with err := .sequence })

/-- The next input of a state is `e`, and `rest` follows. -/
def State.NextInput (s : State) (e : Event) (rest : List Event) : Prop := s.pending = e :: rest

/-- The column parity of theta, by lane index: lanes x, x + 5, …, x + 20 (rules R10 and R124). -/
def columnParity (A : Lanes) (x : Nat) : Word :=
  readLane A x ^^^ readLane A (x + 5) ^^^ readLane A (x + 10) ^^^ readLane A (x + 15) ^^^ readLane A (x + 20)

/-- The source lane of each destination lane of pi (rule R127). -/
def piSource : List Nat := [0, 6, 12, 18, 24, 3, 9, 10, 16, 22, 1, 7, 13, 19, 20, 4, 5, 11, 17, 23, 2, 8, 14, 15, 21]

/-- The rotation offset of each lane (rule R125). -/
def rhoByLane : List Nat := [0, 1, 62, 28, 27, 36, 44, 6, 55, 20, 3, 10, 43, 25, 39, 41, 45, 15, 21, 8, 18, 2, 61, 56, 14]

/-- Every piece and every count of a session is from 0 to 8 (rule R93). -/
def LegalCounts (ns : List (BitVec 4)) : Prop := ∀ n ∈ ns, n.toNat ≤ 8

/-- The counts of a session keep within D for a fixed-output function: not more than D in all, and no SQUEEZE after the
one that completes the output (rules R170 and R173). An XOF has no limit. -/
def CountsFit (f : Func) (ns : List (BitVec 4)) : Prop :=
  ∀ d, f.outputBytes = some d → requested ns ≤ d ∧ ∀ k < ns.length, requested (ns.take k) < d

end Sys2Proof.Machine

/-! ## Reset -/

/-- Rule R47; that irq is 0 is an inference R47 marks as the spec's own (from R38 and R240). -/
def Obligations.ResetHoldsTheStatedValues : Prop :=
  (∀ l < 25, readLane State.reset.lanes l = 0) ∧ State.reset.phase = .idle ∧ State.reset.phase.code = 0 ∧
  State.reset.func.code = 0 ∧ State.reset.be = false ∧ State.reset.err = .noError ∧ State.reset.err.code = 0 ∧
  State.reset.busy = false ∧ State.reset.cursor = 0 ∧ State.reset.outcnt = 0 ∧ State.reset.din = 0 ∧
  State.reset.dout = 0 ∧ readReg .irqen State.reset = 0 ∧ State.reset.irq = false

/-- The reset event (rule R260): from any state, in mid-permutation or under the error lock, every field of the engine
takes its reset value. That the inputs to come stay and the last answer is forgotten is log entry 9. -/
def Obligations.ResetEventRestoresTheEngine : Prop :=
  ∀ (s : State) (rest : List Event), s.NextInput .reset rest →
    ∃ t, step s = .next t ∧ (∀ l < 25, readLane t.lanes l = 0) ∧ t.phase = .idle ∧ t.func.code = 0 ∧ t.be = false ∧
      t.err = .noError ∧ t.busy = false ∧ t.cursor = 0 ∧ t.outcnt = 0 ∧ t.din = 0 ∧ t.dout = 0 ∧ t.irqen = 0 ∧
      t.irq = false ∧ t.response = none ∧ t.pending = rest

/-! ## Encoding -/

/-- Words written out in rules R98 and R100 and in 95_test_vectors.md decode to their commands. -/
def Obligations.WordsOfTheSpecDecode : Prop :=
  decode 0x0 = .command .nop ∧ decode 0x101 = .command (.init 1 false) ∧ decode 0x1401 = .command (.init 4 true) ∧
  decode 0xF01 = .command (.init 15 false) ∧ decode 0x302 = .command (.absorb 3) ∧ decode 0x3 = .command .finalize ∧
  decode 0x804 = .command (.squeeze 8) ∧ decode 0x5 = .command .finish ∧ decode 0x6 = .command .permute ∧
  decode 0x307 = .command (.laneWr 3) ∧ decode 0x1808 = .command (.laneRd 24) ∧ decode 0x9 = .command .clrerr ∧
  decode 0x701 = .badConfig ∧ decode 0x10A = .illegalOpcode ∧ decode 0x904 = .illegalOperand .squeeze ∧
  decode 0x2701 = .illegalOperand .init

/-- Decoding an encoded well-formed command gives it back, with every operand at every legal value. -/
def Obligations.DecodeOfEncode : Prop := ∀ i : Instr, i.WellFormed → decode (encode i) = .command i

/-- A word that decodes to a command is that command's encoding, and the command is well-formed: every word has one
meaning. -/
def Obligations.EncodeOfDecode : Prop :=
  ∀ (w : Word) (i : Instr), decode w = .command i → encode i = w ∧ i.WellFormed

/-- Rule R99: a word is a row's command exactly when it matches the row under its mask and its fields are legal. -/
def Obligations.WordsDecodeByMatchAndMask : Prop :=
  ∀ (w : Word) (op : Opcode), (∃ i, decode w = .command i ∧ i.opcode = op) ↔ w &&& tableMask op = tableMatch op ∧ tableLegal op w

/-- Rule R96: the verdict, case by case in the rule's order, on the numbers OP, ARG and RES. -/
def Obligations.DecodeVerdictInOrder : Prop :=
  ∀ w : Word, ∀ op arg res, op = w.toNat % 256 → arg = w.toNat / 256 % 32 → res = w.toNat / 8192 →
    (9 < op → decode w = .illegalOpcode) ∧
    (op ≤ 9 → res ≠ 0 → ∃ o, decode w = .illegalOperand o) ∧
    (op ∈ [0, 3, 5, 6, 9] → res = 0 → arg ≠ 0 → ∃ o, decode w = .illegalOperand o) ∧
    (op ∈ [2, 4] → res = 0 → (16 ≤ arg ∨ 8 < arg % 16) → ∃ o, decode w = .illegalOperand o) ∧
    (op ∈ [7, 8] → res = 0 → 24 < arg → ∃ o, decode w = .illegalOperand o) ∧
    (op = 1 → res = 0 → arg % 16 ∉ [0, 1, 2, 3, 4, 5, 15] → decode w = .badConfig) ∧
    (op ∈ [0, 3, 5, 6, 9] → res = 0 → arg = 0 → ∃ i, decode w = .command i) ∧
    (op ∈ [2, 4] → res = 0 → arg ≤ 8 → ∃ i, decode w = .command i) ∧
    (op ∈ [7, 8] → res = 0 → arg ≤ 24 → ∃ i, decode w = .command i) ∧
    (op = 1 → res = 0 → arg % 16 ∈ [0, 1, 2, 3, 4, 5, 15] → ∃ i, decode w = .command i)

/-! ## Issue -/

/-- A step runs the decoded command: the write to CMD is taken off the inputs and answered with OKAY (rules R27 and
R61), and the command runs in that state. -/
def Obligations.StepRunsTheDecodedCommand : Prop :=
  ∀ (s : State) (rest : List Event) (w : Word) (i : Instr), s.NextInput (.write 0x00 8 w) rest → decode w = .command i →
    step s = exec i { s with pending := rest, response := some .writeOkay }

/-- Issuing the word of a command is running the command, for every operand value the fields can hold. For a well-formed
command this is rule R231; that a term that is not well-formed means the refusal its word gets by rules R96, R97 and R231
is the model's choice (log entry 12). -/
def Obligations.EncodedWordIssuesTheCommand : Prop := ∀ (i : Instr) (s : State), issueCommand (encode i) s = exec i s

/-- The checks of rule R231 in their order, for every word, NOP and CLRERR while BUSY = 1 among those that pass; what an
accepted command does is its own rule's. -/
def Obligations.IssueReportsTheFirstFailedCheck : Prop :=
  ∀ (s : State) (w : Word), s.err = .noError →
    (decode w = .illegalOpcode → issueCommand w s = .next { s with err := .illegal }) ∧
    (∀ op, decode w = .illegalOperand op → s.busy = true → op ≠ .nop → op ≠ .clrerr →
      issueCommand w s = .next { s with err := .busy }) ∧
    (∀ op, decode w = .illegalOperand op → (s.busy = false ∨ op = .nop ∨ op = .clrerr) →
      issueCommand w s = .next { s with err := .illegal }) ∧
    (decode w = .badConfig → s.busy = true → issueCommand w s = .next { s with err := .busy }) ∧
    (decode w = .badConfig → s.busy = false → issueCommand w s = .next { s with err := .config }) ∧
    (∀ i, decode w = .command i → s.busy = true → i ≠ .nop → i ≠ .clrerr →
      issueCommand w s = .next { s with err := .busy }) ∧
    (∀ i, decode w = .command i → s.busy = false → s.phase ∉ phaseRow i.opcode →
      issueCommand w s = .next { s with err := .sequence }) ∧
    (∀ n d, decode w = .command (.squeeze n) → s.busy = false → s.phase = .squeezing → s.func.outputBytes = some d →
      d < s.outcnt.toNat + n.toNat → issueCommand w s = .next { s with err := .sequence }) ∧
    (∀ i, decode w = .command i → (s.busy = false ∨ i = .nop ∨ i = .clrerr) → s.phase ∈ phaseRow i.opcode →
      (∀ n d, i = .squeeze n → s.func.outputBytes = some d → s.outcnt.toNat + n.toNat ≤ d) →
      ∃ t, issueCommand w s = .next t ∧ t.err = .noError)

/-- Rule R233. -/
def Obligations.ErrorLockIgnoresEverythingButClrerr : Prop :=
  ∀ s : State, s.err ≠ .noError →
    (∀ w : Word, w ≠ 0x9 → issueCommand w s = .next s) ∧ issueCommand 0x9 s = .next { s with err := .noError } ∧
    (∀ t, step s = .next t → t.err = s.err ∨ t.err = .noError) ∧
    (∀ rest, s.NextInput .engineTurn rest → step s = .next { s with busy := false, pending := rest }) ∧
    (∀ v rest, s.NextInput (wr .din v) rest →
      step s = .next { s with din := v, response := some .writeOkay, pending := rest }) ∧
    (∀ v rest, s.NextInput (wr .irqen v) rest →
      step s = .next { s with irqen := v.setWidth 2, response := some .writeOkay, pending := rest }) ∧
    (∀ r rest, s.NextInput (rd r) rest →
      step s = .next { s with response := some (.readOkay (readReg r s)), pending := rest })

/-- Rule R232: recording an error changes ERR and nothing else, whatever the word. -/
def Obligations.RaisedErrorChangesOnlyErr : Prop :=
  ∀ (w : Word) (s t : State), issueCommand w s = .next t → s.err = .noError → t.err ≠ .noError → t = { s with err := t.err }

/-- Rule R236: the whole table. -/
def Obligations.CommandsOutsideTheirPhasesRaiseSequence : Prop :=
  ∀ (i : Instr) (s : State), i.WellFormed → s.Ready →
    (s.phase ∉ phaseRow i.opcode → exec i s = .next { s with err := .sequence }) ∧
    (s.phase ∈ phaseRow i.opcode → (∀ n d, i = .squeeze n → s.func.outputBytes = some d → s.outcnt.toNat + n.toNat ≤ d) →
      ∃ t, exec i s = .next t ∧ t.err = .noError)

/-- Rule R237, which the spec collects from the command rules: the phase after an accepted command, after one that was
not accepted, and after every other input. -/
def Obligations.PhaseFollowsTheTransitionTable : Prop :=
  (∀ (i : Instr) (s t : State), exec i s = .next t → s.err = .noError → t.err = .noError →
    t.phase = match i with
      | .init func _ => if func = 15 then .raw else .created
      | .absorb _ => .absorbing
      | .finalize => .squeezing
      | .squeeze _ => if s.func.outputBytes = some t.outcnt.toNat then .finished else .squeezing
      | .finish => .finished
      | .nop | .permute | .laneWr _ | .laneRd _ | .clrerr => s.phase) ∧
  (∀ (w : Word) (s t : State), issueCommand w s = .next t → (s.err ≠ .noError ∨ t.err ≠ .noError) → t.phase = s.phase) ∧
  (∀ (s t : State) (rest : List Event), s.NextInput .reset rest → step s = .next t → t.phase = .idle) ∧
  (∀ (s t : State), step s = .next t → (∀ w rest, ¬ s.NextInput (.write 0x00 8 w) rest) →
    (∀ rest, ¬ s.NextInput .reset rest) → t.phase = s.phase)

/-- Rule R267 and the second check of rule R231: every command but NOP and CLRERR is dropped while BUSY = 1, and the
error locks the engine; NOP and CLRERR are accepted. -/
def Obligations.CommandsWhileBusyRaiseBusy : Prop :=
  ∀ (i : Instr) (s : State), s.err = .noError → s.busy = true →
    (i ≠ .nop → i ≠ .clrerr → exec i s = .next { s with err := .busy } ∧
      ∀ w, w ≠ 0x9 → issueCommand w { s with err := .busy } = .next { s with err := .busy }) ∧
    (i = .nop ∨ i = .clrerr → exec i s = .next s)

/-! ## The commands -/

/-- Rule R206: NOP has no effect in any state; a NOP with stray bits is ILLEGAL, or ignored under the lock. -/
def Obligations.NopHasNoEffect : Prop :=
  (∀ s : State, exec .nop s = .next s ∧ issueCommand 0x0 s = .next s) ∧
  (∀ (s : State) (w : Word), w.extractLsb' 0 8 = 0x00 → w ≠ 0 →
    (s.err = .noError → issueCommand w s = .next { s with err := .illegal }) ∧
    (s.err ≠ .noError → issueCommand w s = .next s))

/-- Rule R161: INIT zeroes the state under the selected function, twice the same INIT is one, and its errors. -/
def Obligations.InitStartsAFreshSession : Prop :=
  (∀ (s : State) (f : Func) (be : Bool), s.Ready →
    ∃ t, exec (.init f.code be) s = .next t ∧ (∀ l < 25, readLane t.lanes l = 0) ∧
      t = { s with lanes := t.lanes, func := f, be := be, phase := if f = .raw then .raw else .created, cursor := 0,
                   outcnt := 0, dout := 0 } ∧
      exec (.init f.code be) t = .next t) ∧
  (∀ (s : State) (w : Word), s.err = .noError → w.extractLsb' 0 8 = 0x01 →
    (s.busy = true → issueCommand w s = .next { s with err := .busy }) ∧
    (s.busy = false → w.toNat / 8192 ≠ 0 → issueCommand w s = .next { s with err := .illegal }) ∧
    (s.busy = false → w.toNat / 8192 = 0 → 6 ≤ w.toNat / 256 % 16 → w.toNat / 256 % 16 ≤ 14 →
      issueCommand w s = .next { s with err := .config }) ∧
    (s.busy = false → w.toNat / 8192 = 0 → (w.toNat / 256 % 16 < 6 ∨ w.toNat / 256 % 16 = 15) →
      issueCommand w s = exec (.init (w.extractLsb' 8 4) (w.getLsbD 12)) s))

/-- Rules R163 and R164: the n bytes of DIN are XORed in at CURSOR; a block that fills is permuted at once and the other
bytes go to the next block; every other field and every other state byte is as it was. -/
def Obligations.AbsorbXorsBytesAtTheCursor : Prop :=
  (∀ (s : State) (n : BitVec 4) (c r m : Nat), s.Ready → s.phase = .created ∨ s.phase = .absorbing → n.toNat ≤ 8 →
    c = s.cursor.toNat → r = s.rate.toNat → m = n.toNat → c < r →
    ∃ t, exec (.absorb n) s = .next t ∧
      t = { s with lanes := t.lanes, cursor := t.cursor, phase := .absorbing, busy := t.busy } ∧
      (c + m < r → t.cursor.toNat = c + m ∧ t.busy = false ∧
        ∀ i < 200, stateByte t.lanes i =
          if c ≤ i ∧ i < c + m then stateByte s.lanes i ^^^ inByte s.be s.din (i - c) else stateByte s.lanes i) ∧
      (r ≤ c + m → t.cursor.toNat = c + m - r ∧ t.busy = true ∧
        ∃ full : Lanes,
          (∀ i < 200, stateByte full i =
            if c ≤ i ∧ i < r then stateByte s.lanes i ^^^ inByte s.be s.din (i - c) else stateByte s.lanes i) ∧
          ∀ i < 200, stateByte t.lanes i =
            if i < c + m - r then stateByte (keccakP full) i ^^^ inByte s.be s.din (r - c + i)
            else stateByte (keccakP full) i)) ∧
  RefusesWords 0x02 (fun a => a ≤ 8) [.created, .absorbing]

/-- Rule R166: SUFFIX at CURSOR, 0x80 at RATE - 1, one permutation, and the phase SQUEEZING; in the block before the
permutation every other byte is as it was. Where both fall on one byte is the spec's inference R167. -/
def Obligations.FinalizePadsAndPermutes : Prop :=
  (∀ s : State, s.Ready → s.phase = .created ∨ s.phase = .absorbing → s.cursor.toNat < s.rate.toNat →
    ∃ padded : Lanes,
      exec .finalize s = .next { s with lanes := keccakP padded, cursor := 0, phase := .squeezing, busy := true } ∧
      (∀ i < 200, i ≠ s.cursor.toNat → i ≠ s.rate.toNat - 1 → stateByte padded i = stateByte s.lanes i) ∧
      (s.cursor.toNat ≠ s.rate.toNat - 1 →
        stateByte padded s.cursor.toNat = stateByte s.lanes s.cursor.toNat ^^^ s.func.suffix ∧
        stateByte padded (s.rate.toNat - 1) = stateByte s.lanes (s.rate.toNat - 1) ^^^ 0x80) ∧
      (s.cursor.toNat = s.rate.toNat - 1 →
        stateByte padded s.cursor.toNat = stateByte s.lanes s.cursor.toNat ^^^ (s.func.suffix ^^^ 0x80) ∧
        (s.func.outputBytes.isSome → s.func.suffix ^^^ 0x80 = 0x86) ∧
        (s.func.outputBytes = none → s.func.suffix ^^^ 0x80 = 0x9F))) ∧
  RefusesWords 0x03 (fun a => a = 0) [.created, .absorbing]

/-- Rules R169 and R170: the n bytes at CURSOR go to DOUT, with one permutation when a byte is asked for past the end of
the block; OUTCNT counts for the fixed-output functions, and D ends the output. That no fixed-output SQUEEZE permutes is
an inference that R169 marks as the spec's own. -/
def Obligations.SqueezeEmitsBytesAtTheCursor : Prop :=
  (∀ (s : State) (n : BitVec 4) (c r m : Nat), s.Inv → s.Ready → s.phase = .squeezing → n.toNat ≤ 8 →
    c = s.cursor.toNat → r = s.rate.toNat → m = n.toNat →
    (∀ d, s.func.outputBytes = some d → s.outcnt.toNat + m ≤ d) →
    ∃ t, exec (.squeeze n) s = .next t ∧
      t = { s with lanes := t.lanes, cursor := t.cursor, dout := t.dout, outcnt := t.outcnt, phase := t.phase,
                   busy := t.busy } ∧
      (∀ k < 8, inByte s.be t.dout k =
        if k < m then (if c + k < r then stateByte s.lanes (c + k) else stateByte (keccakP s.lanes) (c + k - r)) else 0) ∧
      t.busy = decide (r < c + m) ∧
      t.outcnt.toNat = (if s.func.outputBytes.isSome then s.outcnt.toNat + m else s.outcnt.toNat) ∧
      (s.func.outputBytes.isSome → t.busy = false) ∧
      (s.func.outputBytes = some (s.outcnt.toNat + m) → t.phase = .finished ∧ t.lanes = zeroLanes ∧ t.cursor = 0) ∧
      (s.func.outputBytes ≠ some (s.outcnt.toNat + m) → t.phase = .squeezing ∧
        t.lanes = (if r < c + m then keccakP s.lanes else s.lanes) ∧
        t.cursor.toNat = (if r < c + m then c + m - r else c + m))) ∧
  (∀ (s : State) (n : BitVec 4) (d : Nat), s.Ready → s.phase = .squeezing → n.toNat ≤ 8 → s.func.outputBytes = some d →
    d < s.outcnt.toNat + n.toNat → exec (.squeeze n) s = .next { s with err := .sequence }) ∧
  RefusesWords 0x04 (fun a => a ≤ 8) [.squeezing]

/-- Rules R172 and R173: the state is zeroed, the cursor too, and OUTCNT, FUNC, BE, DOUT and the rest are kept. -/
def Obligations.FinishZeroesTheState : Prop :=
  (∀ s : State, s.Ready → s.phase = .squeezing →
    ∃ t, exec .finish s = .next t ∧ (∀ l < 25, readLane t.lanes l = 0) ∧
      t = { s with lanes := t.lanes, cursor := 0, phase := .finished }) ∧
  RefusesWords 0x05 (fun a => a = 0) [.squeezing]

/-- Rule R200. -/
def Obligations.PermuteAppliesThePermutation : Prop :=
  (∀ s : State, s.Ready → s.phase = .raw → exec .permute s = .next { s with lanes := keccakP s.lanes, busy := true }) ∧
  RefusesWords 0x06 (fun a => a = 0) [.raw]

/-- Rule R202: lane IDX takes DIN's value whatever BE is; every other lane and field is as it was. -/
def Obligations.LaneWrWritesOneLane : Prop :=
  (∀ (s : State) (idx : BitVec 5), s.Ready → s.phase = .raw → idx.toNat ≤ 24 →
    ∃ t, exec (.laneWr idx) s = .next t ∧ t = { s with lanes := t.lanes } ∧
      ∀ l < 25, readLane t.lanes l = if l = idx.toNat then s.din else readLane s.lanes l) ∧
  RefusesWords 0x07 (fun a => a ≤ 24) [.raw]

/-- Rule R204: DOUT takes lane IDX's value whatever BE is; nothing else changes. -/
def Obligations.LaneRdReadsOneLane : Prop :=
  (∀ (s : State) (idx : BitVec 5), s.Ready → s.phase = .raw → idx.toNat ≤ 24 →
    exec (.laneRd idx) s = .next { s with dout := readLane s.lanes idx.toNat }) ∧
  RefusesWords 0x08 (fun a => a ≤ 24) [.raw]

/-- Rule R208: CLRERR clears ERR in every state and changes nothing else; it alone among the commands clears ERR; with
stray bits it is ILLEGAL, or ignored under the lock. -/
def Obligations.ClrerrClearsOnlyErr : Prop :=
  (∀ s : State, exec .clrerr s = .next { s with err := .noError }) ∧
  (∀ (i : Instr) (s t : State), exec i s = .next t → s.err ≠ .noError → t.err = .noError → i = .clrerr) ∧
  (∀ (s : State) (w : Word), w.extractLsb' 0 8 = 0x09 → w ≠ 0x9 →
    (s.err = .noError → issueCommand w s = .next { s with err := .illegal }) ∧
    (s.err ≠ .noError → issueCommand w s = .next s))

/-! ## The bus -/

/-- Rule R61: the accepted accesses, in any state. -/
def Obligations.AcceptedBusAccesses : Prop :=
  ∀ (s : State) (rest : List Event) (v : Word),
    (s.NextInput (.write 0x00 8 v) rest → step s = issueCommand v { s with pending := rest, response := some .writeOkay }) ∧
    (s.NextInput (.write 0x10 8 v) rest →
      step s = .next { s with pending := rest, response := some .writeOkay, din := v }) ∧
    (s.NextInput (.write 0x20 8 v) rest →
      ∃ t, step s = .next t ∧ t = { s with pending := rest, response := some .writeOkay, irqen := t.irqen } ∧
        readReg .irqen t = v &&& 0x3) ∧
    (s.NextInput (.read 0x00 8) rest → step s = .next { s with pending := rest, response := some (.readOkay 0) }) ∧
    (s.NextInput (.read 0x08 8) rest → step s = .next { s with pending := rest, response := some (.readOkay s.status) }) ∧
    (s.NextInput (.read 0x10 8) rest → step s = .next { s with pending := rest, response := some (.readOkay s.din) }) ∧
    (s.NextInput (.read 0x18 8) rest →
      step s = .next { s with pending := rest, response := some (.readOkay (if s.busy then 0 else s.dout)) }) ∧
    (s.NextInput (.read 0x20 8) rest →
      step s = .next { s with pending := rest, response := some (.readOkay (s.irqen.setWidth 64)) })

/-- Rule R62: every other access gets SLVERR, a read with data 0, and changes nothing of the engine. -/
def Obligations.RefusedBusAccesses : Prop :=
  ∀ (s : State) (rest : List Event) (off : BitVec 8) (size : Nat) (v : Word),
    ((size ≠ 8 ∨ off.toNat % 8 ≠ 0 ∨ 0x28 ≤ off.toNat) → s.NextInput (.read off size) rest →
      step s = .next { s with pending := rest, response := some (.readSlverr 0) }) ∧
    ((size ≠ 8 ∨ off.toNat % 8 ≠ 0 ∨ 0x28 ≤ off.toNat ∨ off = 0x08 ∨ off = 0x18) → s.NextInput (.write off size v) rest →
      step s = .next { s with pending := rest, response := some .writeSlverr })

/-- Rule R73 and the model's address decoding (log entry 6): the window is the 0x100 bytes at BASE, a multiple of
0x100; the address BASE + off reaches the engine as offset off, and no other address reaches it. -/
def Obligations.WindowIsAtBase : Prop :=
  Config.base % 0x100 = 0 ∧ (∀ off : BitVec 8, windowOffset? (Config.base + off.toNat) = some off) ∧
  (∀ addr, addr < Config.base ∨ Config.base + 0x100 ≤ addr →
    ∀ size v, hostRead addr size = [] ∧ hostWrite addr size v = [])

/-! ## STATUS, irq and BUSY -/

/-- Rules R30 and R36: each field at its bits, the reserved bits 0, and RATE by phase and function. The numbers of PHASE,
FUNC, ERR and RATE are those of the tables of rules R31, R95, R230 and R7. -/
def Obligations.StatusFieldsAtTheirBits : Prop :=
  ∀ s : State,
    s.status.extractLsb' 0 1 = bit s.busy ∧ s.status.extractLsb' 1 1 = bit s.irq ∧ s.status.extractLsb' 2 6 = 0 ∧
    s.status.extractLsb' 8 3 = s.phase.code ∧ s.status.extractLsb' 11 1 = bit s.be ∧
    s.status.extractLsb' 12 4 = s.func.code ∧ s.status.extractLsb' 16 4 = s.err.code ∧ s.status.extractLsb' 20 4 = 0 ∧
    s.status.extractLsb' 24 8 = s.cursor ∧ s.status.extractLsb' 32 8 = s.outcnt ∧ s.status.extractLsb' 40 8 = s.rate ∧
    s.status.extractLsb' 48 16 = 0 ∧
    (s.phase = .idle ∨ s.phase = .raw → s.rate = 0) ∧
    (s.phase = .created ∨ s.phase = .absorbing ∨ s.phase = .squeezing ∨ s.phase = .finished → s.rate = s.func.rate) ∧
    s.phase.code = (match s.phase with
      | .idle => 0 | .created => 1 | .absorbing => 2 | .squeezing => 3 | .finished => 4 | .raw => 5) ∧
    s.func.code = (match s.func with
      | .sha3_224 => 0 | .sha3_256 => 1 | .sha3_384 => 2 | .sha3_512 => 3 | .shake128 => 4 | .shake256 => 5 | .raw => 15) ∧
    s.err.code = (match s.err with
      | .noError => 0 | .config => 1 | .sequence => 2 | .illegal => 3 | .busy => 4) ∧
    s.func.rate.toNat = (match s.func with
      | .sha3_224 => 144 | .sha3_256 => 136 | .sha3_384 => 104 | .sha3_512 => 72 | .shake128 => 168 | .shake256 => 136
      | .raw => 0)

/-- Rule R240. -/
def Obligations.IrqFollowsItsFormula : Prop :=
  ∀ s : State, (s.irq = true ↔ (s.irqen.getLsbD 0 = true ∧ s.busy = false) ∨ (s.irqen.getLsbD 1 = true ∧ s.err.code ≠ 0)) ∧
    s.status.getLsbD 1 = s.irq

/-- Rule R242: a word that raises an error records its code, drops the command, locks the engine and asserts irq when
ERR_IE = 1. -/
def Obligations.RaisedErrorLocksAndAssertsIrq : Prop :=
  ∀ (w : Word) (s t : State), issueCommand w s = .next t → s.err = .noError → t.err ≠ .noError →
    t = { s with err := t.err } ∧ (∀ w', w' ≠ 0x9 → issueCommand w' t = .next t) ∧ (s.irqen.getLsbD 1 = true → t.irq = true)

/-- Rule R264: BUSY is set exactly by an accepted command that ran a permutation; no word written to CMD clears it. -/
def Obligations.BusySetExactlyWhenAPermutationRan : Prop :=
  ∀ (w : Word) (s t : State), s.Inv → issueCommand w s = .next t →
    (s.busy = true → t.busy = true) ∧
    (s.busy = false → (t.busy = true ↔ s.err = .noError ∧ t.err = .noError ∧ ∃ i, decode w = .command i ∧
      ((∃ n, i = .absorb n ∧ s.rate.toNat ≤ s.cursor.toNat + n.toNat) ∨ i = .finalize ∨
       (∃ n, i = .squeeze n ∧ s.rate.toNat < s.cursor.toNat + n.toNat) ∨ i = .permute)))

/-- Rule R265: completion, also under the error lock. With no input left the engine takes its turn (log entry 2); a turn
while BUSY = 0 does nothing (log entry 3). -/
def Obligations.CompletionClearsBusyAndNothingElse : Prop :=
  ∀ (s : State) (rest : List Event), s.NextInput .engineTurn rest ∨ (s.pending = [] ∧ rest = []) →
    (s.busy = true → step s = .next { s with busy := false, pending := rest }) ∧
    (s.busy = false → step s = .next { s with pending := rest })

/-- Rule R262, an inference the spec marks as its own (from R260 and R231), over every step: BUSY goes from 1 to 0 by
completion or reset alone, so no command abandons a permutation. -/
def Obligations.BusyIsClearedOnlyByCompletionOrReset : Prop :=
  ∀ s t : State, step s = .next t → s.busy = true → t.busy = false →
    s.pending = [] ∨ ∃ rest, s.NextInput .engineTurn rest ∨ s.NextInput .reset rest

/-- Rule R266. -/
def Obligations.DoutReadsZeroWhileBusy : Prop :=
  ∀ (s : State) (rest : List Event), s.NextInput (rd .dout) rest →
    (s.busy = true → step s = .next { s with pending := rest, response := some (.readOkay 0) }) ∧
    (s.busy = false → step s = .next { s with pending := rest, response := some (.readOkay s.dout) })

/-- Rule R271, in the model's form (log entry 2): whatever inputs are pending, BUSY is 0 at some point not later than one
step after the last of them. -/
def Obligations.EveryBusyPeriodEnds : Prop :=
  ∀ s : State, ∃ k ≤ s.pending.length + 1, ∃ t, core.run k s = .next t ∧ t.busy = false

/-- Rule R234 (the spec's inference) and the head of 93_implementation_defined.md: from any state, whatever the inputs,
the machine runs on. -/
def Obligations.EngineNeverStops : Prop := ∀ s : State, Safe s

/-! ## Invariants and whole-machine rules -/

/-- Rules R34 and R46, which the spec marks as inferences from its command rules: every step keeps the session
invariant. -/
def Obligations.StepKeepsTheSessionInvariant : Prop := ∀ s t : State, s.Inv → step s = .next t → t.Inv

/-- The session invariant holds after reset. -/
def Obligations.ResetMeetsTheSessionInvariant : Prop := State.reset.Inv

/-- Rule R32: FUNC and BE are the operands of the last successful INIT, change at no other time but reset, and FUNC is 0
in IDLE. -/
def Obligations.FuncAndBeComeFromTheLastInit : Prop :=
  (∀ (f : Func) (be : Bool) (s t : State), exec (.init f.code be) s = .next t → s.err = .noError → t.err = .noError →
    t.func = f ∧ t.be = be) ∧
  (∀ s t : State, step s = .next t → (t.func ≠ s.func ∨ t.be ≠ s.be) →
    (∃ rest, s.NextInput .reset rest) ∨
    (∃ w rest func be, s.NextInput (.write 0x00 8 w) rest ∧ decode w = .command (.init func be) ∧ s.Ready)) ∧
  (∀ s : State, s.Inv → s.phase = .idle → s.func.code = 0)

/-- Rule R28: DIN changes by a host write or reset alone, takes the written value in every state, and only ABSORB and
LANE_WR read it. -/
def Obligations.DinIsTheHostsAlone : Prop :=
  (∀ s t : State, step s = .next t → t.din ≠ s.din →
    (∃ v rest, s.NextInput (.write 0x10 8 v) rest ∧ t.din = v) ∨ (∃ rest, s.NextInput .reset rest ∧ t.din = 0)) ∧
  (∀ (s : State) (v : Word) (rest : List Event), s.NextInput (wr .din v) rest →
    ∃ t, step s = .next t ∧ t.din = v ∧ readReg .din t = v) ∧
  (∀ (i : Instr) (s t : State) (v : Word), (∀ n, i ≠ .absorb n) → (∀ idx, i ≠ .laneWr idx) → exec i s = .next t →
    exec i { s with din := v } = .next { t with din := v })

/-- Rule R29: DOUT changes by an accepted SQUEEZE, LANE_RD or INIT, or by reset, alone; INIT and reset write 0. -/
def Obligations.DoutIsTheEnginesAlone : Prop :=
  (∀ s t : State, step s = .next t → t.dout ≠ s.dout →
    (∃ rest, s.NextInput .reset rest ∧ t.dout = 0) ∨
    (∃ w rest i, s.NextInput (.write 0x00 8 w) rest ∧ decode w = .command i ∧ s.Ready ∧
      ((∃ n, i = .squeeze n) ∨ (∃ idx, i = .laneRd idx) ∨ (∃ func be, i = .init func be ∧ t.dout = 0)))) ∧
  (∀ (s t : State) (rest : List Event), s.NextInput (rd .dout) rest → step s = .next t →
    t.response = some (.readOkay (if s.busy then 0 else s.dout)) ∧ t.dout = s.dout)

/-- Rule R38: IRQEN holds RDY_IE and ERR_IE; bits [63:2] read 0 and ignore writes; only a host write or reset changes
it. -/
def Obligations.IrqenHoldsTwoEnables : Prop :=
  (∀ s : State, readReg .irqen s &&& 0xFFFFFFFFFFFFFFFC = 0 ∧ (readReg .irqen s).getLsbD 0 = s.rdyIe ∧
    (readReg .irqen s).getLsbD 1 = s.errIe) ∧
  (∀ (s : State) (v : Word) (rest : List Event), s.NextInput (wr .irqen v) rest →
    ∃ t, step s = .next t ∧ readReg .irqen t = v &&& 0x3) ∧
  (∀ s t : State, step s = .next t → t.irqen ≠ s.irqen →
    (∃ v rest, s.NextInput (.write 0x20 8 v) rest) ∨ (∃ rest, s.NextInput .reset rest ∧ t.irqen = 0))

/-- Rules R5 and R135 (the spec's inferences): no control depends on lane values. With other lanes in place of the
state's, a step does the same to every field but the lanes and DOUT, and to DOUT too outside RAW and SQUEEZING. -/
def Obligations.ControlIsIndependentOfLaneValues : Prop :=
  ∀ (s t : State) (A : Lanes), step s = .next t →
    ∃ t', step { s with lanes := A } = .next t' ∧ t' = { t with lanes := t'.lanes, dout := t'.dout } ∧
      (s.phase ≠ .raw → s.phase ≠ .squeezing → t'.dout = t.dout)

/-- Rules R161 and R201: after INIT nothing of the old session is left; two states that differ in the session alone are
the same state after the same INIT, and after INIT RAW every LANE_RD gives 0. -/
def Obligations.InitHidesTheOldSession : Prop :=
  (∀ (s : State) (A : Lanes) (p : Phase) (g : Func) (b : Bool) (c o : BitVec 8) (d : Word) (f : Func) (be : Bool), s.Ready →
    exec (.init f.code be) { s with lanes := A, phase := p, func := g, be := b, cursor := c, outcnt := o, dout := d } =
      exec (.init f.code be) s) ∧
  (∀ (s t : State) (be : Bool) (idx : BitVec 5), s.Ready → exec (.init 15 be) s = .next t → idx.toNat ≤ 24 →
    ∃ u, exec (.laneRd idx) t = .next u ∧ u.dout = 0 ∧ u.err = .noError)

/-! ## The permutation -/

/-- Rule R121: rotation by the shifts and where each bit goes. Composition, bijectivity and NOT are the spec's inference
R122. -/
def Obligations.RotationMovesBitsAndComposes : Prop :=
  (∀ v : Word, rot64 v 0 = v) ∧
  (∀ (v : Word) (n : Nat), 1 ≤ n → n ≤ 63 → rot64 v n = (v <<< n) ||| (v >>> (64 - n))) ∧
  (∀ (v : Word) (n z : Nat), n < 64 → z < 64 → (rot64 v n).getLsbD ((z + n) % 64) = v.getLsbD z) ∧
  (∀ (v : Word) (a b : Nat), a < 64 → b < 64 → rot64 (rot64 v a) b = rot64 v ((a + b) % 64)) ∧
  (∀ n < 64, Function.Bijective fun v : Word => rot64 v n) ∧
  (∀ v : Word, ~~~v = v ^^^ 0xFFFFFFFFFFFFFFFF)

/-- Rules R124, R125, R127, R128 and R129, by lane index l = x + 5*y, with the tables of rules R125 and R127 as they
stand there by lane index. The fixed points of chi are an inference that R128 marks as the spec's own. -/
def Obligations.StepMappingsByLaneIndex : Prop :=
  ∀ (A : Lanes) (l : Nat), l < 25 →
    readLane (theta A) l = readLane A l ^^^ (columnParity A ((l + 4) % 5) ^^^ rot64 (columnParity A ((l + 1) % 5)) 1) ∧
    readLane (rho A) l = rot64 (readLane A l) (rhoByLane.getD l 0) ∧
    readLane (pi A) l = readLane A (piSource.getD l 0) ∧
    readLane (chi A) l =
      readLane A l ^^^ (~~~readLane A ((l + 1) % 5 + l / 5 * 5) &&& readLane A ((l + 2) % 5 + l / 5 * 5)) ∧
    (∀ i, readLane (iota i A) l = if l = 0 then readLane A 0 ^^^ roundConstant i else readLane A l) ∧
    chi zeroLanes = zeroLanes ∧ chi (Vector.replicate 25 (BitVec.allOnes 64)) = Vector.replicate 25 (BitVec.allOnes 64)

/-- Rule R126: the recurrence visits every lane but (0,0) once and gives the table. -/
def Obligations.RhoOffsetsFollowTheRecurrence : Prop :=
  rhoOffset 0 0 = 0 ∧ (∀ t < 24, rhoOffset (rhoWalk t).1 (rhoWalk t).2 = (t + 1) * (t + 2) / 2 % 64) ∧
  (∀ x y : Fin 5, (x, y) ≠ (0, 0) → ∃ t < 24, rhoWalk t = (x, y))

/-- Rules R130 and R131: the table, row by row, that the LFSR gives it, and (an inference R130 marks as the spec's own)
that no bits but 0, 1, 3, 7, 15, 31 and 63 are set in it. -/
def Obligations.RoundConstantsFollowTheLfsr : Prop :=
  roundConstant 0 = 0x0000000000000001 ∧ roundConstant 12 = 0x000000008000808B ∧
  roundConstant 1 = 0x0000000000008082 ∧ roundConstant 13 = 0x800000000000008B ∧
  roundConstant 2 = 0x800000000000808A ∧ roundConstant 14 = 0x8000000000008089 ∧
  roundConstant 3 = 0x8000000080008000 ∧ roundConstant 15 = 0x8000000000008003 ∧
  roundConstant 4 = 0x000000000000808B ∧ roundConstant 16 = 0x8000000000008002 ∧
  roundConstant 5 = 0x0000000080000001 ∧ roundConstant 17 = 0x8000000000000080 ∧
  roundConstant 6 = 0x8000000080008081 ∧ roundConstant 18 = 0x000000000000800A ∧
  roundConstant 7 = 0x8000000000008009 ∧ roundConstant 19 = 0x800000008000000A ∧
  roundConstant 8 = 0x000000000000008A ∧ roundConstant 20 = 0x8000000080008081 ∧
  roundConstant 9 = 0x0000000000000088 ∧ roundConstant 21 = 0x8000000000008080 ∧
  roundConstant 10 = 0x0000000080008009 ∧ roundConstant 22 = 0x0000000080000001 ∧
  roundConstant 11 = 0x000000008000000A ∧ roundConstant 23 = 0x8000000080008008 ∧
  (∀ i < 24, roundConstant i = rcDerived i) ∧
  (∀ i < 24, ∀ z < 64, (roundConstant i).getLsbD z = true → z ∈ [0, 1, 3, 7, 15, 31, 63])

/-- Rule R136: KeccakP is a bijection on the states. -/
def Obligations.PermutationIsABijection : Prop := Function.Bijective keccakP

/-! ## The sponge -/

/-- The bits of each stream byte in DIN and DOUT under either byte order (rules R67 to R69), and that bytes put into DOUT
are read back in their order, the places past them 0 (rules R69 and R169). -/
def Obligations.OutputBytesReadBackInOrder : Prop :=
  (∀ (v : Word) (k : Nat), k < 8 →
    (∀ j < 8, (inByte false v k).getLsbD j = v.getLsbD (8 * k + j)) ∧
    (∀ j < 8, (inByte true v k).getLsbD j = v.getLsbD (56 - 8 * k + j))) ∧
  (∀ (w : Word) (k : Nat) (b : Byte), k < 8 →
    putOutByte false w k b = w ||| (b.setWidth 64 <<< (8 * k)) ∧
    putOutByte true w k b = w ||| (b.setWidth 64 <<< (56 - 8 * k))) ∧
  ∀ (be : Bool) (bs : List Byte), bs.length ≤ 8 →
    (∀ k < 8, inByte be (packOut be bs) k = bs.getD k 0) ∧ inBytes be (packOut be bs) bs.length = bs

/-- Rule R162: the padding bytes and that they fill the block; and, with rule R166 and (where both XORs fall on one byte)
the spec's inference R167, that `exec .finalize` permutes the block with exactly them XORed in from CURSOR on. -/
def Obligations.FinalizeXorsThePaddingBytes : Prop :=
  ∀ (f : Func) (len q : Nat), f ≠ .raw → q = f.rate.toNat - len % f.rate.toNat →
    1 ≤ q ∧ q ≤ f.rate.toNat ∧ (len + q) % f.rate.toNat = 0 ∧ (padBytes f len).length = q ∧
    (q = 1 → padBytes f len = [f.suffix ^^^ 0x80]) ∧
    (q ≠ 1 → padBytes f len = f.suffix :: (List.replicate (q - 2) 0x00 ++ [0x80])) ∧
    f.suffix = (if f.outputBytes.isSome then 0x06 else 0x1F) ∧
    ∀ s : State, s.Ready → s.phase = .created ∨ s.phase = .absorbing → s.func = f →
      s.cursor.toNat = len % f.rate.toNat →
      ∃ block : Lanes,
        exec .finalize s = .next { s with lanes := keccakP block, cursor := 0, phase := .squeezing, busy := true } ∧
        ∀ i < 200, stateByte block i =
          if s.cursor.toNat ≤ i then stateByte s.lanes i ^^^ (padBytes f len).getD (i - s.cursor.toNat) 0
          else stateByte s.lanes i

/-- Rule R165, an inference the spec marks as its own (from R163): from a fresh session, after ABSORBs of any pieces,
CURSOR and the state are functions of the message alone: the full blocks absorbed, the other bytes XORed in. -/
def Obligations.AbsorptionIsIndependentOfTheSplit : Prop :=
  ∀ (s : State) (pieces : List (BitVec 4 × Word)) (M : List Byte) (r full : Nat), s.Inv → s.Ready → s.phase = .created →
    LegalCounts (pieces.map Prod.fst) → M = message s.be pieces → r = s.rate.toNat → full = r * (M.length / r) →
    ∃ t rs, serve (pieces.flatMap fun p => absorbStmt p.1 p.2) s = some (t, rs) ∧ t.err = .noError ∧
      t.cursor.toNat = M.length % r ∧ t.lanes = xorBlock (absorbBlocks r (M.take full)) (M.drop full)

/-- Rule R175, an inference the spec marks as its own (from R161 to R173), for every function, message, output length
and split of both, and both byte orders, from any state in which no error is recorded and no command is completing: the
session runs with no error recorded, and its output is Sponge_f(M, L). -/
def Obligations.SessionComputesTheSponge : Prop :=
  ∀ (s : State) (f : Func) (be : Bool) (pieces : List (BitVec 4 × Word)) (counts : List (BitVec 4)), s.Ready → f ≠ .raw →
    LegalCounts (pieces.map Prod.fst) → LegalCounts counts → CountsFit f counts →
    ∃ t rs, serve (session f be pieces counts) s = some (t, rs) ∧ t.err = .noError ∧
      output be counts rs = spongeRef f (message be pieces) (requested counts)

/-- Rule R71, an inference the spec marks as its own (from R66 to R69, R163 and R169): two sessions that differ in BE
and present the same message produce the same output. -/
def Obligations.OutputIsIndependentOfTheByteOrder : Prop :=
  ∀ (s : State) (f : Func) (le be : List (BitVec 4 × Word)) (counts : List (BitVec 4)), s.Ready → f ≠ .raw →
    LegalCounts (le.map Prod.fst) → LegalCounts (be.map Prod.fst) → LegalCounts counts → CountsFit f counts →
    message false le = message true be →
    ∃ t rs t' rs', serve (session f false le counts) s = some (t, rs) ∧ serve (session f true be counts) s = some (t', rs') ∧
      output false counts rs = output true counts rs'

/-- Rule R171, an inference the spec marks as its own (from R169): for an XOF, whatever the split of the output, what a
session gives is a prefix of what a session of the same message that asks for more gives. -/
def Obligations.XofOutputIsAPrefix : Prop :=
  ∀ (s : State) (f : Func) (be : Bool) (pieces : List (BitVec 4 × Word)) (few many : List (BitVec 4)), s.Ready →
    f = .shake128 ∨ f = .shake256 → LegalCounts (pieces.map Prod.fst) → LegalCounts few → LegalCounts many →
    requested few ≤ requested many →
    ∃ t rs t' rs', serve (session f be pieces few) s = some (t, rs) ∧ serve (session f be pieces many) s = some (t', rs') ∧
      output be few rs = (output be many rs').take (requested few) ∧ (output be few rs).length = requested few

/-- What `serve` says of a list of inputs is what the machine's steps do with them pending (the schedule of log
entry 1). -/
def Obligations.ServingIsStepping : Prop :=
  ∀ (es rest : List Event) (s : State), ∃ t rs, serve es s = some (t, rs) ∧
    core.run es.length (s.setPending (es ++ rest)) = .next (t.setPending rest)

/-! ## Bytes of the state, rounds, parameters -/

/-- Rule R66: state byte i is bits 8*(i mod 8)+7 to 8*(i mod 8) of lane i div 8, and an XOR into it changes those bits of
that lane alone. That the rate region is the whole lanes 0 to RATE/8 - 1 is an inference R66 marks as the spec's own. -/
def Obligations.StateBytesAreTheirBits : Prop :=
  (∀ (A : Lanes) (i j : Nat), i < 200 → j < 8 →
    (stateByte A i).getLsbD j = (readLane A (i / 8)).getLsbD (8 * (i % 8) + j)) ∧
  (∀ (A : Lanes) (i l : Nat) (b : Byte), i < 200 → l < 25 →
    readLane (xorStateByte A i b) l =
      if l = i / 8 then readLane A l ^^^ (b.setWidth 64 <<< (8 * (i % 8))) else readLane A l) ∧
  (∀ (f : Func) (i : Nat), f.rate.toNat % 8 = 0 ∧ (i < f.rate.toNat ↔ i / 8 < f.rate.toNat / 8))

/-- Rules R132 and R133: a round is the five steps in their order, and KeccakP is the 24 rounds with the indices 0 to 23
in increasing order. -/
def Obligations.RoundsRunInOrder : Prop :=
  (∀ (i : Nat) (A : Lanes), round i A = iota i (chi (pi (rho (theta A))))) ∧
  (∀ A : Lanes, ∃ S : Nat → Lanes, S 0 = A ∧ (∀ i < 24, S (i + 1) = round i (S i)) ∧ keccakP A = S 24)

/-- Rule R7: RATE, capacity, D and SUFFIX of the six functions, and RATE = 200 - 2*D for the four with a fixed output. -/
def Obligations.FunctionParametersAreTheTable : Prop :=
  (∀ f : Func, f ≠ .raw →
    (f.rate.toNat, 1600 - 8 * f.rate.toNat, f.outputBytes, f.suffix) =
      match f.code.toNat with
      | 0 => (144, 448, some 28, 0x06)
      | 1 => (136, 512, some 32, 0x06)
      | 2 => (104, 768, some 48, 0x06)
      | 3 => (72, 1024, some 64, 0x06)
      | 4 => (168, 256, none, 0x1F)
      | _ => (136, 512, none, 0x1F)) ∧
  (∀ (f : Func) (d : Nat), f.outputBytes = some d → f.rate.toNat = 200 - 2 * d)
end

