-- ==== Sys2Proof/Laws/Decode.lean ====
section
/-! SUPPORT. The fields of an encoded word, and the two ways the model says which operands are legal. -/

namespace Sys2Proof

/-- One bit of a word put together from RES, ARG and OP (rule R90). -/
theorem getLsbD_fields (r : BitVec 51) (a : BitVec 5) (o : BitVec 8) (j : Nat) :
    BitVec.getLsbD (w := 64) (r ++ a ++ o) j =
      if j < 8 then o.getLsbD j else if j - 8 < 5 then a.getLsbD (j - 8) else r.getLsbD (j - 8 - 5) := by
  have h1 := BitVec.getLsbD_append (x := r ++ a) (y := o) (i := j)
  have h2 := BitVec.getLsbD_append (x := r) (y := a) (i := j - 8)
  simp only [h2] at h1
  exact h1

@[simp] theorem opField_append (r : BitVec 51) (a : BitVec 5) (o : BitVec 8) : opField (r ++ a ++ o) = o := by
  apply BitVec.eq_of_getLsbD_eq
  intro j hj
  rw [opField, BitVec.getLsbD_extractLsb', getLsbD_fields]
  simp [hj]

@[simp] theorem argField_append (r : BitVec 51) (a : BitVec 5) (o : BitVec 8) : argField (r ++ a ++ o) = a := by
  apply BitVec.eq_of_getLsbD_eq
  intro j hj
  rw [argField, BitVec.getLsbD_extractLsb', getLsbD_fields]
  simp [hj]

@[simp] theorem resField_append (r : BitVec 51) (a : BitVec 5) (o : BitVec 8) : resField (r ++ a ++ o) = r := by
  apply BitVec.eq_of_getLsbD_eq
  intro j hj
  have h1 : ¬ 13 + j < 8 := by omega
  have h2 : ¬ 13 + j - 8 < 5 := by omega
  have h3 : 13 + j - 8 - 5 = j := by omega
  rw [resField, BitVec.getLsbD_extractLsb', getLsbD_fields, if_neg h1, if_neg h2, h3]
  simp [hj]

/-- A word is its three fields (rule R90). -/
theorem word_eq_fields (w : Word) : resField w ++ argField w ++ opField w = w := by
  apply BitVec.eq_of_getLsbD_eq
  intro j hj
  rw [getLsbD_fields]
  simp only [opField, argField, resField, BitVec.getLsbD_extractLsb']
  by_cases h1 : j < 8
  · simp [h1]
  · by_cases h2 : j - 8 < 5
    · have : 8 + (j - 8) = j := by omega
      simp [h1, h2, this]
    · have e1 : 13 + (j - 8 - 5) = j := by omega
      have e2 : j - 8 - 5 < 51 := by omega
      simp [h1, h2, e1, e2]

/-- The decoder's verdict agrees with the well-formedness check (rule R93). -/
theorem verdict_ok_iff (i : Instr) : i.verdict = .ok ↔ i.WellFormed := by
  cases i with
  | init func be => revert func; simp only [Instr.verdict, Instr.WellFormed, Instr.wellFormed]; decide
  | absorb n => revert n; simp only [Instr.verdict, Instr.WellFormed, Instr.wellFormed]; decide
  | squeeze n => revert n; simp only [Instr.verdict, Instr.WellFormed, Instr.wellFormed]; decide
  | laneWr l => revert l; simp only [Instr.verdict, Instr.WellFormed, Instr.wellFormed]; decide
  | laneRd l => revert l; simp only [Instr.verdict, Instr.WellFormed, Instr.wellFormed]; decide
  | nop | finalize | finish | permute | clrerr => simp [Instr.verdict, Instr.WellFormed, Instr.wellFormed]

end Sys2Proof
end

