-- ==== Sys2Proof/Laws/Operands.lean ====
section
/-! SUPPORT. What the operand forms do: lanes, state bytes, stream bytes, the parameters of FUNC, registers by offset. -/

namespace Sys2Proof.Machine

/-! ## Lanes -/

@[simp] theorem readLane_writeLane (A : Lanes) (l m : Nat) (v : Word) :
    readLane (writeLane A l v) m = if l = m ∧ l < 25 then v else readLane A m := by
  unfold readLane writeLane
  by_cases hl : l < 25
  · by_cases hm : m < 25
    · simp [hl, hm, Vector.getElem_set]
    · have : l ≠ m := by omega
      simp [hl, hm, this]
  · simp [hl]

theorem readLane_of_ge {A : Lanes} {l : Nat} (h : 25 ≤ l) : readLane A l = 0 := by
  simp [readLane, Nat.not_lt.mpr h]

theorem lane_eq_readLane (A : Lanes) (x y : Fin 5) : lane A x y = readLane A (x.val + 5 * y.val) := by
  have : x.val + 5 * y.val < 25 := by omega
  simp [lane, readLane, this]

@[simp] theorem lane_ofCoords (f : Fin 5 → Fin 5 → Word) (x y : Fin 5) : lane (ofCoords f) x y = f x y := by
  fin_cases x <;> fin_cases y <;> rfl

/-- Lane files that agree on every lane are equal. -/
theorem lanes_ext {A B : Lanes} (h : ∀ l < 25, readLane A l = readLane B l) : A = B := by
  apply Vector.ext
  intro l hl
  simpa [readLane, hl] using h l hl

/-- Lane files that agree at every coordinate are equal. -/
theorem lanes_ext_coords {A B : Lanes} (h : ∀ x y, lane A x y = lane B x y) : A = B := by
  apply lanes_ext
  intro l hl
  have := h ⟨l % 5, Nat.mod_lt _ (by decide)⟩ ⟨l / 5, by omega⟩
  simpa [lane_eq_readLane, Nat.mod_add_div] using this

@[simp] theorem readLane_zeroLanes (l : Nat) : readLane zeroLanes l = 0 := by
  simp [readLane, zeroLanes]

@[simp] theorem lane_zeroLanes (x y : Fin 5) : lane zeroLanes x y = 0 := by
  simp [lane_eq_readLane]

/-! ## State bytes -/

theorem stateByte_getLsbD (A : Lanes) (i j : Nat) (hj : j < 8) :
    (stateByte A i).getLsbD j = (readLane A (i / 8)).getLsbD (8 * (i % 8) + j) := by
  simp [stateByte, hj]

/-- Reading a state byte after an XOR into one: only the byte at that place changes. -/
@[simp] theorem stateByte_xorStateByte (A : Lanes) (i j : Nat) (b : Byte) :
    stateByte (xorStateByte A i b) j = if i = j ∧ i < 200 then stateByte A j ^^^ b else stateByte A j := by
  apply BitVec.eq_of_getLsbD_eq
  intro k hk
  have hj := Nat.mod_lt j (show 8 > 0 by decide)
  have hi := Nat.mod_lt i (show 8 > 0 by decide)
  rw [stateByte_getLsbD _ _ _ hk, xorStateByte, readLane_writeLane]
  by_cases h : i = j
  · subst h
    by_cases h200 : i < 200
    · have h25 : i / 8 < 25 := by omega
      simp [h200, h25, stateByte_getLsbD _ _ _ hk, BitVec.getLsbD_shiftLeft, BitVec.getLsbD_setWidth]
      have : 8 * (i % 8) + k < 64 := by omega
      have hk' : k < 64 := by omega
      simp [this, hk']
    · have h25 : ¬ i / 8 < 25 := by omega
      simp [h200, h25, stateByte_getLsbD _ _ _ hk]
  · by_cases hl : i / 8 = j / 8
    · have hne : i % 8 ≠ j % 8 := by omega
      have hb : (b.setWidth 64 <<< (8 * (i % 8))).getLsbD (8 * (j % 8) + k) = false := by
        simp only [BitVec.getLsbD_shiftLeft, BitVec.getLsbD_setWidth]
        by_cases hlt : 8 * (j % 8) + k < 8 * (i % 8)
        · simp [hlt]
        · have : ¬ 8 * (j % 8) + k - 8 * (i % 8) < 8 := by omega
          simp [BitVec.getLsbD_of_ge b _ (Nat.not_lt.mp this)]
      split
      · rw [if_neg (by tauto), BitVec.getLsbD_xor, hb, hl, stateByte_getLsbD _ _ _ hk, Bool.xor_false]
      · rw [if_neg (by tauto), stateByte_getLsbD _ _ _ hk]
    · rw [if_neg (by tauto), if_neg (by tauto), stateByte_getLsbD _ _ _ hk]

/-- Lane files that agree on every state byte are equal. -/
theorem lanes_ext_bytes {A B : Lanes} (h : ∀ i < 200, stateByte A i = stateByte B i) : A = B := by
  apply lanes_ext
  intro l hl
  apply BitVec.eq_of_getLsbD_eq
  intro z hz
  have e := congrArg (·.getLsbD (z % 8)) (h (8 * l + z / 8) (by omega))
  have h1 : (8 * l + z / 8) / 8 = l := by omega
  have h2 : 8 * ((8 * l + z / 8) % 8) + z % 8 = z := by omega
  simpa only [stateByte_getLsbD _ _ _ (Nat.mod_lt z (show 8 > 0 by decide)), h1, h2] using e

@[simp] theorem stateByte_zeroLanes (i : Nat) : stateByte zeroLanes i = 0 := by
  simp [stateByte]

/-! ## Stream bytes of DIN and DOUT -/

theorem byteShift_le {be : Bool} {k : Nat} (h : k < 8) : byteShift be k ≤ 56 := by
  unfold byteShift; split <;> omega

/-- Reading a stream byte after one was put in place: the byte is ORed in at its own place only. -/
theorem inByte_putOutByte (be : Bool) (w : Word) (k m : Nat) (b : Byte) (hk : k < 8) (hm : m < 8) :
    inByte be (putOutByte be w k b) m = if k = m then inByte be w m ||| b else inByte be w m := by
  apply BitVec.eq_of_getLsbD_eq
  intro j hj
  simp only [inByte, putOutByte, BitVec.getLsbD_extractLsb', BitVec.getLsbD_or, BitVec.getLsbD_shiftLeft,
    BitVec.getLsbD_setWidth, hj, decide_true, Bool.true_and]
  by_cases h : k = m
  · subst h
    have : byteShift be k + j < 64 := by have := byteShift_le (be := be) hk; omega
    have hj' : j < 64 := by omega
    simp [this, hj, hj']
  · rw [if_neg h]
    have hb : byteShift be m + j < byteShift be k ∨ 8 ≤ byteShift be m + j - byteShift be k := by
      unfold byteShift; split <;> omega
    rcases hb with hb | hb
    · simp [hb, hj]
    · simp [BitVec.getLsbD_of_ge b _ hb, hj]

/-- Reading a stream byte after several were put in place from `k` on. -/
theorem inByte_putOutBytes (be : Bool) (bs : List Byte) (w : Word) (k m : Nat) (h : k + bs.length ≤ 8) (hm : m < 8) :
    inByte be (putOutBytes be w k bs) m =
      if k ≤ m ∧ m < k + bs.length then inByte be w m ||| bs.getD (m - k) 0 else inByte be w m := by
  induction bs generalizing w k with
  | nil => simp [putOutBytes]
  | cons b bs ih =>
    simp only [List.length_cons] at h ⊢
    rw [putOutBytes, ih _ _ (by omega), inByte_putOutByte _ _ _ _ _ (by omega) hm]
    by_cases e : k = m
    · subst e; rw [if_neg (by omega), if_pos rfl, if_pos (by omega)]; simp
    · rw [if_neg e]
      by_cases h1 : k + 1 ≤ m ∧ m < k + 1 + bs.length
      · rw [if_pos h1, if_pos (by omega)]
        have : m - k = (m - (k + 1)) + 1 := by omega
        rw [this, List.getD_cons_succ]
      · rw [if_neg h1, if_neg (by omega)]

@[simp] theorem inByte_zero (be : Bool) (k : Nat) : inByte be 0#64 k = 0#8 := by simp [inByte]

@[simp] theorem inBytes_length (be : Bool) (v : Word) (n : Nat) : (inBytes be v n).length = n := by simp [inBytes]

/-! ## The parameters of FUNC -/

@[simp] theorem Func.ofCode?_code (f : Func) : Func.ofCode? f.code = some f := by cases f <;> rfl

/-- The sponge functions' rates (rules R7 and R66): at least 72, at most 168, whole lanes. -/
theorem Func.rate_bounds {f : Func} (h : f ≠ .raw) :
    72 ≤ f.rate.toNat ∧ f.rate.toNat ≤ 168 ∧ f.rate.toNat % 8 = 0 := by
  cases f <;> first | decide | exact absurd rfl h

/-- A fixed output is shorter than a block (rule R169). -/
theorem Func.outputBytes_lt_rate {f : Func} {d : Nat} (h : f.outputBytes = some d) :
    28 ≤ d ∧ d ≤ 64 ∧ d < f.rate.toNat ∧ f ≠ .raw := by
  cases f <;> simp [Func.outputBytes] at h <;> subst h <;> decide

theorem Func.ofCode?_isSome (c : BitVec 4) : (Func.ofCode? c).isSome = decide (funcVerdict c = .ok) := by
  revert c; decide

/-! ## Registers by offset -/

theorem accessedReg?_eq_some {off : BitVec 8} {size : Nat} {r : Reg} (h : accessedReg? off size = some r) :
    size = 8 ∧ Reg.atOffset? off = some r := by
  unfold accessedReg? at h
  split at h
  · exact ⟨‹_ ∧ _›.1, h⟩
  · cases h

end Sys2Proof.Machine
end

