-- ==== Sys2Proof/Laws/State.lean ====
section
/-! SUPPORT. One lemma for each field of the state after each field update. -/

namespace Sys2Proof.Machine

section
variable (v : Lanes) (s : State)
@[simp] theorem State.setLanes_lanes : (s.setLanes v).lanes = v := rfl
@[simp] theorem State.setLanes_phase : (s.setLanes v).phase = s.phase := rfl
@[simp] theorem State.setLanes_func : (s.setLanes v).func = s.func := rfl
@[simp] theorem State.setLanes_be : (s.setLanes v).be = s.be := rfl
@[simp] theorem State.setLanes_err : (s.setLanes v).err = s.err := rfl
@[simp] theorem State.setLanes_busy : (s.setLanes v).busy = s.busy := rfl
@[simp] theorem State.setLanes_cursor : (s.setLanes v).cursor = s.cursor := rfl
@[simp] theorem State.setLanes_outcnt : (s.setLanes v).outcnt = s.outcnt := rfl
@[simp] theorem State.setLanes_din : (s.setLanes v).din = s.din := rfl
@[simp] theorem State.setLanes_dout : (s.setLanes v).dout = s.dout := rfl
@[simp] theorem State.setLanes_irqen : (s.setLanes v).irqen = s.irqen := rfl
@[simp] theorem State.setLanes_response : (s.setLanes v).response = s.response := rfl
@[simp] theorem State.setLanes_pending : (s.setLanes v).pending = s.pending := rfl
end

section
variable (v : Phase) (s : State)
@[simp] theorem State.setPhase_lanes : (s.setPhase v).lanes = s.lanes := rfl
@[simp] theorem State.setPhase_phase : (s.setPhase v).phase = v := rfl
@[simp] theorem State.setPhase_func : (s.setPhase v).func = s.func := rfl
@[simp] theorem State.setPhase_be : (s.setPhase v).be = s.be := rfl
@[simp] theorem State.setPhase_err : (s.setPhase v).err = s.err := rfl
@[simp] theorem State.setPhase_busy : (s.setPhase v).busy = s.busy := rfl
@[simp] theorem State.setPhase_cursor : (s.setPhase v).cursor = s.cursor := rfl
@[simp] theorem State.setPhase_outcnt : (s.setPhase v).outcnt = s.outcnt := rfl
@[simp] theorem State.setPhase_din : (s.setPhase v).din = s.din := rfl
@[simp] theorem State.setPhase_dout : (s.setPhase v).dout = s.dout := rfl
@[simp] theorem State.setPhase_irqen : (s.setPhase v).irqen = s.irqen := rfl
@[simp] theorem State.setPhase_response : (s.setPhase v).response = s.response := rfl
@[simp] theorem State.setPhase_pending : (s.setPhase v).pending = s.pending := rfl
end

section
variable (v : Func) (s : State)
@[simp] theorem State.setFunc_lanes : (s.setFunc v).lanes = s.lanes := rfl
@[simp] theorem State.setFunc_phase : (s.setFunc v).phase = s.phase := rfl
@[simp] theorem State.setFunc_func : (s.setFunc v).func = v := rfl
@[simp] theorem State.setFunc_be : (s.setFunc v).be = s.be := rfl
@[simp] theorem State.setFunc_err : (s.setFunc v).err = s.err := rfl
@[simp] theorem State.setFunc_busy : (s.setFunc v).busy = s.busy := rfl
@[simp] theorem State.setFunc_cursor : (s.setFunc v).cursor = s.cursor := rfl
@[simp] theorem State.setFunc_outcnt : (s.setFunc v).outcnt = s.outcnt := rfl
@[simp] theorem State.setFunc_din : (s.setFunc v).din = s.din := rfl
@[simp] theorem State.setFunc_dout : (s.setFunc v).dout = s.dout := rfl
@[simp] theorem State.setFunc_irqen : (s.setFunc v).irqen = s.irqen := rfl
@[simp] theorem State.setFunc_response : (s.setFunc v).response = s.response := rfl
@[simp] theorem State.setFunc_pending : (s.setFunc v).pending = s.pending := rfl
end

section
variable (v : Bool) (s : State)
@[simp] theorem State.setBe_lanes : (s.setBe v).lanes = s.lanes := rfl
@[simp] theorem State.setBe_phase : (s.setBe v).phase = s.phase := rfl
@[simp] theorem State.setBe_func : (s.setBe v).func = s.func := rfl
@[simp] theorem State.setBe_be : (s.setBe v).be = v := rfl
@[simp] theorem State.setBe_err : (s.setBe v).err = s.err := rfl
@[simp] theorem State.setBe_busy : (s.setBe v).busy = s.busy := rfl
@[simp] theorem State.setBe_cursor : (s.setBe v).cursor = s.cursor := rfl
@[simp] theorem State.setBe_outcnt : (s.setBe v).outcnt = s.outcnt := rfl
@[simp] theorem State.setBe_din : (s.setBe v).din = s.din := rfl
@[simp] theorem State.setBe_dout : (s.setBe v).dout = s.dout := rfl
@[simp] theorem State.setBe_irqen : (s.setBe v).irqen = s.irqen := rfl
@[simp] theorem State.setBe_response : (s.setBe v).response = s.response := rfl
@[simp] theorem State.setBe_pending : (s.setBe v).pending = s.pending := rfl
end

section
variable (v : ErrCode) (s : State)
@[simp] theorem State.setErr_lanes : (s.setErr v).lanes = s.lanes := rfl
@[simp] theorem State.setErr_phase : (s.setErr v).phase = s.phase := rfl
@[simp] theorem State.setErr_func : (s.setErr v).func = s.func := rfl
@[simp] theorem State.setErr_be : (s.setErr v).be = s.be := rfl
@[simp] theorem State.setErr_err : (s.setErr v).err = v := rfl
@[simp] theorem State.setErr_busy : (s.setErr v).busy = s.busy := rfl
@[simp] theorem State.setErr_cursor : (s.setErr v).cursor = s.cursor := rfl
@[simp] theorem State.setErr_outcnt : (s.setErr v).outcnt = s.outcnt := rfl
@[simp] theorem State.setErr_din : (s.setErr v).din = s.din := rfl
@[simp] theorem State.setErr_dout : (s.setErr v).dout = s.dout := rfl
@[simp] theorem State.setErr_irqen : (s.setErr v).irqen = s.irqen := rfl
@[simp] theorem State.setErr_response : (s.setErr v).response = s.response := rfl
@[simp] theorem State.setErr_pending : (s.setErr v).pending = s.pending := rfl
end

section
variable (v : Bool) (s : State)
@[simp] theorem State.setBusy_lanes : (s.setBusy v).lanes = s.lanes := rfl
@[simp] theorem State.setBusy_phase : (s.setBusy v).phase = s.phase := rfl
@[simp] theorem State.setBusy_func : (s.setBusy v).func = s.func := rfl
@[simp] theorem State.setBusy_be : (s.setBusy v).be = s.be := rfl
@[simp] theorem State.setBusy_err : (s.setBusy v).err = s.err := rfl
@[simp] theorem State.setBusy_busy : (s.setBusy v).busy = v := rfl
@[simp] theorem State.setBusy_cursor : (s.setBusy v).cursor = s.cursor := rfl
@[simp] theorem State.setBusy_outcnt : (s.setBusy v).outcnt = s.outcnt := rfl
@[simp] theorem State.setBusy_din : (s.setBusy v).din = s.din := rfl
@[simp] theorem State.setBusy_dout : (s.setBusy v).dout = s.dout := rfl
@[simp] theorem State.setBusy_irqen : (s.setBusy v).irqen = s.irqen := rfl
@[simp] theorem State.setBusy_response : (s.setBusy v).response = s.response := rfl
@[simp] theorem State.setBusy_pending : (s.setBusy v).pending = s.pending := rfl
end

section
variable (v : BitVec 8) (s : State)
@[simp] theorem State.setCursor_lanes : (s.setCursor v).lanes = s.lanes := rfl
@[simp] theorem State.setCursor_phase : (s.setCursor v).phase = s.phase := rfl
@[simp] theorem State.setCursor_func : (s.setCursor v).func = s.func := rfl
@[simp] theorem State.setCursor_be : (s.setCursor v).be = s.be := rfl
@[simp] theorem State.setCursor_err : (s.setCursor v).err = s.err := rfl
@[simp] theorem State.setCursor_busy : (s.setCursor v).busy = s.busy := rfl
@[simp] theorem State.setCursor_cursor : (s.setCursor v).cursor = v := rfl
@[simp] theorem State.setCursor_outcnt : (s.setCursor v).outcnt = s.outcnt := rfl
@[simp] theorem State.setCursor_din : (s.setCursor v).din = s.din := rfl
@[simp] theorem State.setCursor_dout : (s.setCursor v).dout = s.dout := rfl
@[simp] theorem State.setCursor_irqen : (s.setCursor v).irqen = s.irqen := rfl
@[simp] theorem State.setCursor_response : (s.setCursor v).response = s.response := rfl
@[simp] theorem State.setCursor_pending : (s.setCursor v).pending = s.pending := rfl
end

section
variable (v : BitVec 8) (s : State)
@[simp] theorem State.setOutcnt_lanes : (s.setOutcnt v).lanes = s.lanes := rfl
@[simp] theorem State.setOutcnt_phase : (s.setOutcnt v).phase = s.phase := rfl
@[simp] theorem State.setOutcnt_func : (s.setOutcnt v).func = s.func := rfl
@[simp] theorem State.setOutcnt_be : (s.setOutcnt v).be = s.be := rfl
@[simp] theorem State.setOutcnt_err : (s.setOutcnt v).err = s.err := rfl
@[simp] theorem State.setOutcnt_busy : (s.setOutcnt v).busy = s.busy := rfl
@[simp] theorem State.setOutcnt_cursor : (s.setOutcnt v).cursor = s.cursor := rfl
@[simp] theorem State.setOutcnt_outcnt : (s.setOutcnt v).outcnt = v := rfl
@[simp] theorem State.setOutcnt_din : (s.setOutcnt v).din = s.din := rfl
@[simp] theorem State.setOutcnt_dout : (s.setOutcnt v).dout = s.dout := rfl
@[simp] theorem State.setOutcnt_irqen : (s.setOutcnt v).irqen = s.irqen := rfl
@[simp] theorem State.setOutcnt_response : (s.setOutcnt v).response = s.response := rfl
@[simp] theorem State.setOutcnt_pending : (s.setOutcnt v).pending = s.pending := rfl
end

section
variable (v : Word) (s : State)
@[simp] theorem State.setDin_lanes : (s.setDin v).lanes = s.lanes := rfl
@[simp] theorem State.setDin_phase : (s.setDin v).phase = s.phase := rfl
@[simp] theorem State.setDin_func : (s.setDin v).func = s.func := rfl
@[simp] theorem State.setDin_be : (s.setDin v).be = s.be := rfl
@[simp] theorem State.setDin_err : (s.setDin v).err = s.err := rfl
@[simp] theorem State.setDin_busy : (s.setDin v).busy = s.busy := rfl
@[simp] theorem State.setDin_cursor : (s.setDin v).cursor = s.cursor := rfl
@[simp] theorem State.setDin_outcnt : (s.setDin v).outcnt = s.outcnt := rfl
@[simp] theorem State.setDin_din : (s.setDin v).din = v := rfl
@[simp] theorem State.setDin_dout : (s.setDin v).dout = s.dout := rfl
@[simp] theorem State.setDin_irqen : (s.setDin v).irqen = s.irqen := rfl
@[simp] theorem State.setDin_response : (s.setDin v).response = s.response := rfl
@[simp] theorem State.setDin_pending : (s.setDin v).pending = s.pending := rfl
end

section
variable (v : Word) (s : State)
@[simp] theorem State.setDout_lanes : (s.setDout v).lanes = s.lanes := rfl
@[simp] theorem State.setDout_phase : (s.setDout v).phase = s.phase := rfl
@[simp] theorem State.setDout_func : (s.setDout v).func = s.func := rfl
@[simp] theorem State.setDout_be : (s.setDout v).be = s.be := rfl
@[simp] theorem State.setDout_err : (s.setDout v).err = s.err := rfl
@[simp] theorem State.setDout_busy : (s.setDout v).busy = s.busy := rfl
@[simp] theorem State.setDout_cursor : (s.setDout v).cursor = s.cursor := rfl
@[simp] theorem State.setDout_outcnt : (s.setDout v).outcnt = s.outcnt := rfl
@[simp] theorem State.setDout_din : (s.setDout v).din = s.din := rfl
@[simp] theorem State.setDout_dout : (s.setDout v).dout = v := rfl
@[simp] theorem State.setDout_irqen : (s.setDout v).irqen = s.irqen := rfl
@[simp] theorem State.setDout_response : (s.setDout v).response = s.response := rfl
@[simp] theorem State.setDout_pending : (s.setDout v).pending = s.pending := rfl
end

section
variable (v : BitVec 2) (s : State)
@[simp] theorem State.setIrqen_lanes : (s.setIrqen v).lanes = s.lanes := rfl
@[simp] theorem State.setIrqen_phase : (s.setIrqen v).phase = s.phase := rfl
@[simp] theorem State.setIrqen_func : (s.setIrqen v).func = s.func := rfl
@[simp] theorem State.setIrqen_be : (s.setIrqen v).be = s.be := rfl
@[simp] theorem State.setIrqen_err : (s.setIrqen v).err = s.err := rfl
@[simp] theorem State.setIrqen_busy : (s.setIrqen v).busy = s.busy := rfl
@[simp] theorem State.setIrqen_cursor : (s.setIrqen v).cursor = s.cursor := rfl
@[simp] theorem State.setIrqen_outcnt : (s.setIrqen v).outcnt = s.outcnt := rfl
@[simp] theorem State.setIrqen_din : (s.setIrqen v).din = s.din := rfl
@[simp] theorem State.setIrqen_dout : (s.setIrqen v).dout = s.dout := rfl
@[simp] theorem State.setIrqen_irqen : (s.setIrqen v).irqen = v := rfl
@[simp] theorem State.setIrqen_response : (s.setIrqen v).response = s.response := rfl
@[simp] theorem State.setIrqen_pending : (s.setIrqen v).pending = s.pending := rfl
end

section
variable (v : Response) (s : State)
@[simp] theorem State.respond_lanes : (s.respond v).lanes = s.lanes := rfl
@[simp] theorem State.respond_phase : (s.respond v).phase = s.phase := rfl
@[simp] theorem State.respond_func : (s.respond v).func = s.func := rfl
@[simp] theorem State.respond_be : (s.respond v).be = s.be := rfl
@[simp] theorem State.respond_err : (s.respond v).err = s.err := rfl
@[simp] theorem State.respond_busy : (s.respond v).busy = s.busy := rfl
@[simp] theorem State.respond_cursor : (s.respond v).cursor = s.cursor := rfl
@[simp] theorem State.respond_outcnt : (s.respond v).outcnt = s.outcnt := rfl
@[simp] theorem State.respond_din : (s.respond v).din = s.din := rfl
@[simp] theorem State.respond_dout : (s.respond v).dout = s.dout := rfl
@[simp] theorem State.respond_irqen : (s.respond v).irqen = s.irqen := rfl
@[simp] theorem State.respond_response : (s.respond v).response = some v := rfl
@[simp] theorem State.respond_pending : (s.respond v).pending = s.pending := rfl
end

section
variable (v : List Event) (s : State)
@[simp] theorem State.setPending_lanes : (s.setPending v).lanes = s.lanes := rfl
@[simp] theorem State.setPending_phase : (s.setPending v).phase = s.phase := rfl
@[simp] theorem State.setPending_func : (s.setPending v).func = s.func := rfl
@[simp] theorem State.setPending_be : (s.setPending v).be = s.be := rfl
@[simp] theorem State.setPending_err : (s.setPending v).err = s.err := rfl
@[simp] theorem State.setPending_busy : (s.setPending v).busy = s.busy := rfl
@[simp] theorem State.setPending_cursor : (s.setPending v).cursor = s.cursor := rfl
@[simp] theorem State.setPending_outcnt : (s.setPending v).outcnt = s.outcnt := rfl
@[simp] theorem State.setPending_din : (s.setPending v).din = s.din := rfl
@[simp] theorem State.setPending_dout : (s.setPending v).dout = s.dout := rfl
@[simp] theorem State.setPending_irqen : (s.setPending v).irqen = s.irqen := rfl
@[simp] theorem State.setPending_response : (s.setPending v).response = s.response := rfl
@[simp] theorem State.setPending_pending : (s.setPending v).pending = v := rfl
end

/-- Two states with equal fields are equal. -/
@[ext] theorem State.ext_fields {s t : State} (h1 : s.lanes = t.lanes) (h2 : s.phase = t.phase) (h3 : s.func = t.func)
    (h4 : s.be = t.be) (h5 : s.err = t.err) (h6 : s.busy = t.busy) (h7 : s.cursor = t.cursor) (h8 : s.outcnt = t.outcnt)
    (h9 : s.din = t.din) (h10 : s.dout = t.dout) (h11 : s.irqen = t.irqen) (h12 : s.response = t.response)
    (h13 : s.pending = t.pending) : s = t := by
  cases s; cases t; simp_all

end Sys2Proof.Machine
end

