-- ==== Sys2Proof/Laws/Ops.lean ====
section
/-! SUPPORT. What each operation the commands share can do. -/

namespace Sys2Proof.Machine

/-! ## BUSY -/

@[simp] theorem State.markBusy_busy (p : Nat) (s : State) : (s.markBusy p).busy = (s.busy || decide (0 < p)) := by
  unfold State.markBusy; split <;> simp_all
@[simp] theorem State.markBusy_lanes (p : Nat) (s : State) : (s.markBusy p).lanes = s.lanes := by
  unfold State.markBusy; split <;> rfl
@[simp] theorem State.markBusy_phase (p : Nat) (s : State) : (s.markBusy p).phase = s.phase := by
  unfold State.markBusy; split <;> rfl
@[simp] theorem State.markBusy_func (p : Nat) (s : State) : (s.markBusy p).func = s.func := by
  unfold State.markBusy; split <;> rfl
@[simp] theorem State.markBusy_be (p : Nat) (s : State) : (s.markBusy p).be = s.be := by
  unfold State.markBusy; split <;> rfl
@[simp] theorem State.markBusy_err (p : Nat) (s : State) : (s.markBusy p).err = s.err := by
  unfold State.markBusy; split <;> rfl
@[simp] theorem State.markBusy_cursor (p : Nat) (s : State) : (s.markBusy p).cursor = s.cursor := by
  unfold State.markBusy; split <;> rfl
@[simp] theorem State.markBusy_outcnt (p : Nat) (s : State) : (s.markBusy p).outcnt = s.outcnt := by
  unfold State.markBusy; split <;> rfl
@[simp] theorem State.markBusy_din (p : Nat) (s : State) : (s.markBusy p).din = s.din := by
  unfold State.markBusy; split <;> rfl
@[simp] theorem State.markBusy_dout (p : Nat) (s : State) : (s.markBusy p).dout = s.dout := by
  unfold State.markBusy; split <;> rfl
@[simp] theorem State.markBusy_irqen (p : Nat) (s : State) : (s.markBusy p).irqen = s.irqen := by
  unfold State.markBusy; split <;> rfl
@[simp] theorem State.markBusy_response (p : Nat) (s : State) : (s.markBusy p).response = s.response := by
  unfold State.markBusy; split <;> rfl
@[simp] theorem State.markBusy_pending (p : Nat) (s : State) : (s.markBusy p).pending = s.pending := by
  unfold State.markBusy; split <;> rfl

/-- A turn of the engine clears BUSY, whatever it was, and changes nothing else. -/
theorem engineTurn_eq (s : State) : engineTurn s = s.setBusy false := by
  unfold engineTurn
  split
  · rfl
  · next h => ext1 <;> simp_all

/-! ## RATE -/

theorem State.rate_of_sponge {s : State} (h1 : s.phase ≠ .idle) (h2 : s.phase ≠ .raw) : s.rate = s.func.rate := by
  unfold State.rate; split <;> first | rfl | contradiction

/-! ## The checks at issue -/

/-- A command passes every check exactly when its opcode is known, BUSY does not stop it, its operands are legal, its
phase is allowed and the output limit is kept. -/
theorem issueError_eq_none {op : Option Opcode} {v : Verdict} {overrun : Bool} {s : State} :
    issueError op v overrun s = none ↔
      ∃ o, op = some o ∧ (s.busy = true → acceptedWhileBusy o = true) ∧ v = .ok ∧ allowedIn o s.phase = true
        ∧ overrun = false := by
  cases op with
  | none => simp [issueError]
  | some o =>
    simp only [issueError, Option.some.injEq, exists_eq_left']
    generalize s.busy = b, acceptedWhileBusy o = a, allowedIn o s.phase = p
    cases b <;> cases a <;> cases v <;> cases p <;> cases overrun <;> simp

/-- A failed check never reports NONE. -/
theorem issueError_ne_noError {op : Option Opcode} {v : Verdict} {overrun : Bool} {s : State} {c : ErrCode}
    (h : issueError op v overrun s = some c) : c ≠ .noError := by
  unfold issueError at h
  cases op with
  | none => simp at h; subst h; simp
  | some o =>
    rintro rfl
    revert h
    simp only
    generalize s.busy = b, acceptedWhileBusy o = a, allowedIn o s.phase = p
    cases b <;> cases a <;> cases v <;> cases p <;> cases overrun <;> simp

theorem issue_locked {op : Option Opcode} {v : Verdict} {overrun : Bool} {effect : State → State} {s : State}
    (h : s.err ≠ .noError) : issue op v overrun effect s = s := if_neg h

theorem issue_raises {op : Option Opcode} {v : Verdict} {overrun : Bool} {effect : State → State} {s : State}
    {c : ErrCode} (h : s.err = .noError) (he : issueError op v overrun s = some c) :
    issue op v overrun effect s = raiseError c s := by
  simp [issue, h, he]

theorem issue_accepts {op : Option Opcode} {v : Verdict} {overrun : Bool} {effect : State → State} {s : State}
    (h : s.err = .noError) (he : issueError op v overrun s = none) : issue op v overrun effect s = effect s := by
  simp [issue, h, he]

/-- All that issue can do: nothing under the lock, record the first error, or the effect. -/
theorem issue_cases (op : Option Opcode) (v : Verdict) (overrun : Bool) (effect : State → State) (s : State) :
    (s.err ≠ .noError ∧ issue op v overrun effect s = s) ∨
    (∃ c, s.err = .noError ∧ issueError op v overrun s = some c ∧ issue op v overrun effect s = raiseError c s) ∨
    (s.err = .noError ∧ issueError op v overrun s = none ∧ issue op v overrun effect s = effect s) := by
  by_cases h : s.err = .noError
  · cases he : issueError op v overrun s with
    | some c => exact .inr (.inl ⟨c, h, rfl, issue_raises h he⟩)
    | none => exact .inr (.inr ⟨h, rfl, issue_accepts h he⟩)
  · exact .inl ⟨h, issue_locked h⟩

end Sys2Proof.Machine
end

