-- ==== Sys2Proof/Laws/Sponge.lean ====
section
/-! SUPPORT. The byte loops of ABSORB and SQUEEZE, and the fields their effects leave alone. -/

namespace Sys2Proof.Machine

@[simp] theorem absorbBytes_nil (rate : BitVec 8) (t : Transfer) : absorbBytes rate t [] = t := rfl

@[simp] theorem absorbBytes_cons (rate : BitVec 8) (t : Transfer) (b : Byte) (bs : List Byte) :
    absorbBytes rate t (b :: bs) = absorbBytes rate (absorbByte rate t b) bs := rfl

@[simp] theorem squeezeBytes_zero (rate : BitVec 8) (t : Transfer) : squeezeBytes rate 0 t = ([], t) := rfl

@[simp] theorem squeezeBytes_length (rate : BitVec 8) (n : Nat) (t : Transfer) : (squeezeBytes rate n t).1.length = n := by
  induction n generalizing t with
  | zero => rfl
  | succ n ih => simp [squeezeBytes, ih]

/-- Absorbing `bs` with room for all of it, and more, in the block: no permutation, the cursor moves on. -/
theorem absorbBytes_within {rate : BitVec 8} (bs : List Byte) {t : Transfer}
    (h : t.cursor.toNat + bs.length < rate.toNat) :
    (absorbBytes rate t bs).cursor = t.cursor + BitVec.ofNat 8 bs.length ∧ (absorbBytes rate t bs).perms = t.perms := by
  induction bs generalizing t with
  | nil => simp
  | cons b bs ih =>
    have hr := rate.isLt
    simp only [List.length_cons] at h
    have hc : (t.cursor + 1).toNat = t.cursor.toNat + 1 := by
      rw [BitVec.toNat_add]; simp; omega
    have hne : t.cursor + 1 ≠ rate := fun e => by rw [← e, hc] at h; omega
    have hs : absorbByte rate t b = ⟨xorStateByte t.lanes t.cursor.toNat b, t.cursor + 1, t.perms⟩ := by
      rw [absorbByte, if_neg hne]
    rw [absorbBytes_cons, hs]
    obtain ⟨h1, h2⟩ := ih (t := ⟨xorStateByte t.lanes t.cursor.toNat b, t.cursor + 1, t.perms⟩) (by simp only [hc]; omega)
    refine ⟨?_, h2⟩
    rw [h1, List.length_cons]
    apply BitVec.eq_of_toNat_eq
    simp [BitVec.toNat_add]
    omega

theorem toNat_add_one {c r : BitVec 8} (h : c.toNat < r.toNat) : (c + 1).toNat = c.toNat + 1 := by
  have hr := r.isLt
  rw [BitVec.toNat_add]; simp; omega

/-- Absorbing with room to spare, byte by byte: the bytes are XORed in from the cursor on, and nothing else changes. -/
theorem stateByte_absorbBytes_within {rate : BitVec 8} (bs : List Byte) {t : Transfer}
    (h : t.cursor.toNat + bs.length < rate.toNat) (h200 : rate.toNat ≤ 200) (i : Nat) :
    stateByte (absorbBytes rate t bs).lanes i =
      if t.cursor.toNat ≤ i ∧ i < t.cursor.toNat + bs.length then stateByte t.lanes i ^^^ bs.getD (i - t.cursor.toNat) 0
      else stateByte t.lanes i := by
  induction bs generalizing t with
  | nil => simp
  | cons b bs ih =>
    simp only [List.length_cons] at h
    have hc : (t.cursor + 1).toNat = t.cursor.toNat + 1 := toNat_add_one (r := rate) (by omega)
    have hne : t.cursor + 1 ≠ rate := fun e => by rw [← e, hc] at h; omega
    rw [absorbBytes_cons, absorbByte, if_neg hne, ih (by simp only [hc]; omega)]
    simp only [hc, stateByte_xorStateByte, List.length_cons]
    by_cases e : t.cursor.toNat = i
    · subst e
      rw [if_neg (by omega), if_pos ⟨rfl, by omega⟩, if_pos (by omega)]
      simp
    · rw [if_neg (c := t.cursor.toNat = i ∧ _) (by tauto)]
      by_cases h1 : t.cursor.toNat + 1 ≤ i ∧ i < t.cursor.toNat + 1 + bs.length
      · rw [if_pos h1, if_pos (by omega)]
        have : i - t.cursor.toNat = (i - (t.cursor.toNat + 1)) + 1 := by omega
        rw [this, List.getD_cons_succ]
      · rw [if_neg h1, if_neg (by omega)]

theorem absorbBytes_append (rate : BitVec 8) (t : Transfer) (as bs : List Byte) :
    absorbBytes rate t (as ++ bs) = absorbBytes rate (absorbBytes rate t as) bs := List.foldl_append ..

/-- Absorbing exactly to the end of the block: the filled block is permuted and the cursor returns to 0. -/
theorem absorbBytes_fills {rate : BitVec 8} {bs : List Byte} {t : Transfer} (h : t.cursor.toNat < rate.toNat)
    (hl : t.cursor.toNat + bs.length = rate.toNat) (h200 : rate.toNat ≤ 200) :
    ∃ full, absorbBytes rate t bs = ⟨keccakP full, 0, t.perms + 1⟩ ∧ ∀ i, stateByte full i =
      if t.cursor.toNat ≤ i ∧ i < rate.toNat then stateByte t.lanes i ^^^ bs.getD (i - t.cursor.toNat) 0
      else stateByte t.lanes i := by
  rcases List.eq_nil_or_concat bs with rfl | ⟨as, b, rfl⟩
  · simp at hl; omega
  · simp only [List.concat_eq_append, List.length_append, List.length_singleton] at hl ⊢
    obtain ⟨h1, h2⟩ := absorbBytes_within as (rate := rate) (t := t) (by omega)
    have hc : (absorbBytes rate t as).cursor.toNat = t.cursor.toNat + as.length := by
      have := rate.isLt
      rw [h1, BitVec.toNat_add]; simp; omega
    have he : (absorbBytes rate t as).cursor + 1 = rate := by
      apply BitVec.eq_of_toNat_eq
      rw [toNat_add_one (r := rate) (by omega)]; omega
    refine ⟨xorStateByte (absorbBytes rate t as).lanes (absorbBytes rate t as).cursor.toNat b, ?_, fun i => ?_⟩
    · rw [absorbBytes_append, absorbBytes_cons, absorbBytes_nil, absorbByte, if_pos he, h2]
    · rw [stateByte_xorStateByte, stateByte_absorbBytes_within as (by omega) h200, hc]
      by_cases e : t.cursor.toNat + as.length = i
      · subst e
        rw [if_pos ⟨rfl, by omega⟩, if_neg (by omega), if_pos (by omega)]
        simp
      · rw [if_neg (by tauto)]
        by_cases h1 : t.cursor.toNat ≤ i ∧ i < t.cursor.toNat + as.length
        · rw [if_pos h1, if_pos (by omega), List.getD_append _ _ _ _ (by omega)]
        · rw [if_neg h1, if_neg (by omega)]

/-- Squeezing within the block: the bytes from the cursor on, and no permutation. -/
theorem squeezeBytes_within {rate : BitVec 8} (n : Nat) {t : Transfer} (h : t.cursor.toNat + n ≤ rate.toNat) :
    squeezeBytes rate n t = ((List.range n).map (fun k => stateByte t.lanes (t.cursor.toNat + k)),
      ⟨t.lanes, t.cursor + BitVec.ofNat 8 n, t.perms⟩) := by
  induction n generalizing t with
  | zero => simp
  | succ n ih =>
    have hne : t.cursor ≠ rate := fun e => by rw [e] at h; omega
    have hc : (t.cursor + 1).toNat = t.cursor.toNat + 1 := toNat_add_one (r := rate) (by omega)
    simp only [squeezeBytes, refill, if_neg hne]
    rw [ih (by simp only [hc]; omega), List.range_succ_eq_map]
    simp only [hc, List.map_cons, List.map_map, Nat.add_zero, Prod.mk.injEq, List.cons.injEq, true_and, Transfer.mk.injEq,
      and_true]
    refine ⟨?_, ?_⟩
    · apply List.map_congr_left; intro k _; simp [Nat.add_assoc, Nat.add_comm 1]
    · apply BitVec.eq_of_toNat_eq; simp [BitVec.toNat_add]; omega

/-- Squeezing past the end of the block: one permutation, the bytes before it from the old state and the others from the
new one. -/
theorem squeezeBytes_crosses {rate : BitVec 8} (n : Nat) {t : Transfer} (hc : t.cursor.toNat ≤ rate.toNat)
    (h : rate.toNat < t.cursor.toNat + n) (hn : n ≤ rate.toNat) :
    squeezeBytes rate n t =
      ((List.range n).map (fun k => if t.cursor.toNat + k < rate.toNat then stateByte t.lanes (t.cursor.toNat + k)
        else stateByte (keccakP t.lanes) (t.cursor.toNat + k - rate.toNat)),
      ⟨keccakP t.lanes, BitVec.ofNat 8 (t.cursor.toNat + n - rate.toNat), t.perms + 1⟩) := by
  induction n generalizing t with
  | zero => omega
  | succ n ih =>
    by_cases e : t.cursor = rate
    · have h0 : (0 : BitVec 8) ≠ rate := fun e0 => by rw [← e0] at hn; simp at hn
      have : squeezeBytes rate (n + 1) t = squeezeBytes rate (n + 1) ⟨keccakP t.lanes, 0, t.perms + 1⟩ := by
        simp only [squeezeBytes, refill, if_pos e, if_neg h0]
      rw [this, squeezeBytes_within (n + 1) (by simpa using hn), e]
      simp
    · have hlt : t.cursor.toNat < rate.toNat := by
        rcases Nat.lt_or_ge t.cursor.toNat rate.toNat with h | h
        · exact h
        · exact absurd (BitVec.eq_of_toNat_eq (by omega)) e
      have hc1 : (t.cursor + 1).toNat = t.cursor.toNat + 1 := toNat_add_one hlt
      simp only [squeezeBytes, refill, if_neg e]
      rw [ih (by simp only [hc1]; omega) (by simp only [hc1]; omega) (by omega), List.range_succ_eq_map]
      simp only [hc1, List.map_cons, List.map_map, Nat.add_zero, if_pos hlt, Prod.mk.injEq, List.cons.injEq, true_and,
        Transfer.mk.injEq, and_true]
      refine ⟨?_, ?_⟩
      · apply List.map_congr_left; intro k _; simp [Nat.add_assoc, Nat.add_comm 1]
      · congr 1; omega

/-- The fields ABSORB's and SQUEEZE's loops write back. -/
@[simp] theorem State.setTransfer_lanes (t : Transfer) (s : State) : (s.setTransfer t).lanes = t.lanes := rfl
@[simp] theorem State.setTransfer_cursor (t : Transfer) (s : State) : (s.setTransfer t).cursor = t.cursor := rfl
@[simp] theorem State.setTransfer_phase (t : Transfer) (s : State) : (s.setTransfer t).phase = s.phase := rfl
@[simp] theorem State.setTransfer_func (t : Transfer) (s : State) : (s.setTransfer t).func = s.func := rfl
@[simp] theorem State.setTransfer_be (t : Transfer) (s : State) : (s.setTransfer t).be = s.be := rfl
@[simp] theorem State.setTransfer_err (t : Transfer) (s : State) : (s.setTransfer t).err = s.err := rfl
@[simp] theorem State.setTransfer_busy (t : Transfer) (s : State) : (s.setTransfer t).busy = s.busy := rfl
@[simp] theorem State.setTransfer_outcnt (t : Transfer) (s : State) : (s.setTransfer t).outcnt = s.outcnt := rfl
@[simp] theorem State.setTransfer_din (t : Transfer) (s : State) : (s.setTransfer t).din = s.din := rfl
@[simp] theorem State.setTransfer_dout (t : Transfer) (s : State) : (s.setTransfer t).dout = s.dout := rfl
@[simp] theorem State.setTransfer_irqen (t : Transfer) (s : State) : (s.setTransfer t).irqen = s.irqen := rfl
@[simp] theorem State.setTransfer_response (t : Transfer) (s : State) : (s.setTransfer t).response = s.response := rfl
@[simp] theorem State.setTransfer_pending (t : Transfer) (s : State) : (s.setTransfer t).pending = s.pending := rfl

@[simp] theorem State.transfer_lanes (s : State) : s.transfer.lanes = s.lanes := rfl
@[simp] theorem State.transfer_cursor (s : State) : s.transfer.cursor = s.cursor := rfl
@[simp] theorem State.transfer_perms (s : State) : s.transfer.perms = 0 := rfl

/-- All that the count of a SQUEEZE can do: nothing, OUTCNT, or OUTCNT and the end of the output. -/
theorem countOutput_cases (n : Nat) (s : State) :
    (s.func.outputBytes = none ∧ countOutput n s = s) ∨
    (∃ d, s.func.outputBytes = some d ∧
      (((s.outcnt + BitVec.ofNat 8 n).toNat ≠ d ∧ countOutput n s = s.setOutcnt (s.outcnt + BitVec.ofNat 8 n)) ∨
       ((s.outcnt + BitVec.ofNat 8 n).toNat = d ∧
          countOutput n s = enterFinished (s.setOutcnt (s.outcnt + BitVec.ofNat 8 n))))) := by
  unfold countOutput
  cases h : s.func.outputBytes with
  | none => exact .inl ⟨rfl, rfl⟩
  | some d =>
    refine .inr ⟨d, rfl, ?_⟩
    by_cases e : (s.outcnt + BitVec.ofNat 8 n).toNat = d
    · exact .inr ⟨e, if_pos e⟩
    · exact .inl ⟨e, if_neg e⟩

end Sys2Proof.Machine
end

