-- ==== Sys2Proof/Laws/Exec.lean ====
section
/-! SUPPORT. All that `exec`, a command write and a step can do, said once. -/

namespace Sys2Proof.Machine

/-- What a command does once it has passed the checks at issue. -/
def effectOf (i : Instr) (s : State) : State :=
  match i with
  | .nop => s
  | .init func be => match Func.ofCode? func with
    | some f => initEffect f be s
    | none => s
  | .absorb n => absorbEffect n.toNat s
  | .finalize => finalizeEffect s
  | .squeeze n => squeezeEffect n.toNat s
  | .finish => enterFinished s
  | .permute => permuteEffect s
  | .laneWr idx => laneWrEffect idx.toNat s
  | .laneRd idx => laneRdEffect idx.toNat s
  | .clrerr => clearError s

/-- The fixed-output check of a command: only SQUEEZE has one. -/
def overrunOf (i : Instr) (s : State) : Bool :=
  match i with
  | .squeeze n => s.overrun n.toNat
  | .nop | .init _ _ | .absorb _ | .finalize | .finish | .permute | .laneWr _ | .laneRd _ | .clrerr => false

/-- Every command is one call of `issue`, but for CLRERR under the error lock. -/
theorem exec_eq_issue {i : Instr} {s : State} (h : i ≠ .clrerr ∨ s.err = .noError) :
    exec i s = .next (issue (some i.opcode) i.verdict (overrunOf i s) (effectOf i) s) := by
  cases i with
  | init func be =>
    simp only [exec, execInit, Instr.opcode, Instr.verdict, overrunOf]
    cases hf : Func.ofCode? func <;> simp [issue, effectOf, hf]
  | clrerr =>
    have h : s.err = .noError := by simpa using h
    simp only [exec, execClrerr, if_pos h]
    rfl
  | nop | absorb | finalize | squeeze | finish | permute | laneWr | laneRd => rfl

theorem exec_clrerr_locked {s : State} (h : s.err ≠ .noError) : exec .clrerr s = .next (clearError s) := by
  simp [exec, execClrerr, h]

/-- All that a command can do: nothing but CLRERR under the lock, its first error, or its effect. -/
theorem exec_cases {i : Instr} {s t : State} (h : exec i s = .next t) :
    (s.err ≠ .noError ∧ i = .clrerr ∧ t = clearError s) ∨
    (s.err ≠ .noError ∧ i ≠ .clrerr ∧ t = s) ∨
    (∃ c, s.err = .noError ∧ issueError (some i.opcode) i.verdict (overrunOf i s) s = some c ∧ t = raiseError c s) ∨
    (s.err = .noError ∧ issueError (some i.opcode) i.verdict (overrunOf i s) s = none ∧ t = effectOf i s) := by
  by_cases hl : s.err ≠ .noError ∧ i = .clrerr
  · obtain ⟨h1, rfl⟩ := hl
    rw [exec_clrerr_locked h1] at h
    exact .inl ⟨h1, rfl, by cases h; rfl⟩
  · rw [exec_eq_issue (by tauto)] at h
    obtain rfl : issue _ _ _ _ s = t := by simpa using h
    obtain ⟨h1, h2⟩ | ⟨c, h1, h2, h3⟩ | ⟨h1, h2, h3⟩ :=
      issue_cases (some i.opcode) i.verdict (overrunOf i s) (effectOf i) s
    · exact .inr (.inl ⟨h1, by tauto, h2⟩)
    · exact .inr (.inr (.inl ⟨c, h1, h2, h3⟩))
    · exact .inr (.inr (.inr ⟨h1, h2, h3⟩))

/-- All that a word written to CMD can do: it is a command, or it is dropped with an error, or nothing under the lock. -/
theorem issueCommand_cases {w : Word} {s t : State} (h : issueCommand w s = .next t) :
    (∃ i, decode w = .command i ∧ exec i s = .next t) ∨
    ((∀ i, decode w ≠ .command i) ∧
      ((s.err ≠ .noError ∧ t = s) ∨ (∃ c, s.err = .noError ∧ c ≠ .noError ∧ t = raiseError c s))) := by
  unfold issueCommand at h
  cases hd : decode w with
  | command i => rw [hd] at h; exact .inl ⟨i, rfl, h⟩
  | illegalOpcode | illegalOperand op | badConfig =>
    refine .inr ⟨by simp, ?_⟩
    rw [hd] at h
    simp only [Host.Outcome.next.injEq] at h
    subst h
    rcases issue_cases _ _ _ _ s with ⟨h1, h2⟩ | ⟨c, h1, h2, h3⟩ | ⟨h1, h2, h3⟩
    · exact .inl ⟨h1, h2⟩
    · exact .inr ⟨c, h1, issueError_ne_noError h2, h3⟩
    · simp [issueError_eq_none] at h2

/-- All that a bus write can do: issue a word, write DIN or IRQEN, or get SLVERR. -/
theorem busWrite_cases {off : BitVec 8} {size : Nat} {v : Word} {s t : State} (h : busWrite off size v s = .next t) :
    (accessedReg? off size = some .cmd ∧ issueCommand v (s.respond .writeOkay) = .next t) ∨
    (accessedReg? off size = some .din ∧ t = (s.respond .writeOkay).setDin v) ∨
    (accessedReg? off size = some .irqen ∧ t = (s.respond .writeOkay).setIrqen (v.extractLsb' 0 2)) ∨
    ((accessedReg? off size = none ∨ accessedReg? off size = some .status ∨ accessedReg? off size = some .dout) ∧
      t = s.respond .writeSlverr) := by
  unfold busWrite at h
  cases ha : accessedReg? off size with
  | none => rw [ha] at h; simp at h; simp [h]
  | some r =>
    rw [ha] at h
    cases r <;> simp only [writeReg, Host.Outcome.next.injEq] at h <;> simp [h]

/-- A bus read changes nothing but the answer on the port. -/
theorem busRead_eq (off : BitVec 8) (size : Nat) (s : State) : ∃ r, busRead off size s = s.respond r := by
  unfold busRead; split <;> exact ⟨_, rfl⟩

/-- All that a step can do: the engine's turn when no input is left, or the delivery of the next input. -/
theorem step_cases {s t : State} (h : step s = .next t) :
    (s.pending = [] ∧ t = engineTurn s) ∨
    (∃ e rest, s.pending = e :: rest ∧ deliver e (s.setPending rest) = .next t) := by
  unfold step at h
  cases hp : s.pending with
  | nil => rw [hp] at h; simp at h; exact .inl ⟨rfl, h.symm⟩
  | cons e rest => rw [hp] at h; exact .inr ⟨e, rest, rfl, h⟩

/-- One step, then k more. -/
theorem core_run_succ {k : Nat} {s t : State} (h : step s = .next t) : core.run (k + 1) s = core.run k t := by
  have run_succ : ∀ (M : Host.Core) (s t : M.State), M.step s = .next t → M.run (k + 1) s = M.run k t :=
    fun M s t h => by rw [Host.Core.run, h]
  exact run_succ core s t h

/-- All that a word written to CMD can do to the state: ERR alone, or the effect of a command that passed every check. -/
theorem issueCommand_effect {w : Word} {s t : State} (h : issueCommand w s = .next t) :
    (∃ c, t = { s with err := c }) ∨
    (∃ i, decode w = .command i ∧ s.err = .noError ∧ (s.busy = true → i = .nop ∨ i = .clrerr) ∧ i.WellFormed ∧
      allowedIn i.opcode s.phase = true ∧ overrunOf i s = false ∧ t = effectOf i s) := by
  rcases issueCommand_cases h with ⟨i, hd, h⟩ | ⟨_, ⟨_, ht⟩ | ⟨c, _, _, ht⟩⟩
  · rcases exec_cases h with ⟨_, _, ht⟩ | ⟨_, _, ht⟩ | ⟨c, _, _, ht⟩ | ⟨he, hi, ht⟩ <;> subst ht
    · exact .inl ⟨_, rfl⟩
    · exact .inl ⟨_, rfl⟩
    · exact .inl ⟨c, rfl⟩
    · obtain ⟨o, ho, h1, h2, h3, h4⟩ := issueError_eq_none.1 hi
      cases ho
      refine .inr ⟨i, hd, he, fun hb => ?_, (verdict_ok_iff i).1 h2, h3, h4, rfl⟩
      have := h1 hb
      cases i <;> simp_all [acceptedWhileBusy, Instr.opcode]
  · subst ht; exact .inl ⟨_, rfl⟩
  · subst ht; exact .inl ⟨c, rfl⟩

/-- All that a step can do to the state, input by input. -/
theorem step_effect {s t : State} (h : step s = .next t) :
    (t = { s with busy := false, pending := t.pending } ∧
      (s.pending = [] ∨ ∃ rest, s.pending = .engineTurn :: rest)) ∨
    (∃ rest, s.pending = .reset :: rest ∧ t = State.reset.setPending rest) ∨
    (∃ r rest, t = { s with response := r, pending := rest }) ∨
    (∃ v rest, s.pending = .write 0x10 8 v :: rest ∧
      t = { s with din := v, response := some .writeOkay, pending := rest }) ∨
    (∃ v rest, s.pending = .write 0x20 8 v :: rest ∧
      t = { s with irqen := v.extractLsb' 0 2, response := some .writeOkay, pending := rest }) ∨
    (∃ w rest, s.pending = .write 0x00 8 w :: rest ∧
      issueCommand w { s with response := some .writeOkay, pending := rest } = .next t) := by
  rcases step_cases h with ⟨hp, rfl⟩ | ⟨e, rest, hp, hd⟩
  · rw [engineTurn_eq]; exact .inl ⟨rfl, .inl hp⟩
  · cases e with
    | read off size =>
      obtain ⟨r, hr⟩ := busRead_eq off size (s.setPending rest)
      simp [deliver, hr] at hd; subst hd
      exact .inr (.inr (.inl ⟨_, _, rfl⟩))
    | engineTurn => simp [deliver, engineTurn_eq] at hd; subst hd; exact .inl ⟨rfl, .inr ⟨_, hp⟩⟩
    | reset => simp [deliver] at hd; subst hd; exact .inr (.inl ⟨rest, hp, rfl⟩)
    | write off size v =>
      have off_eq : ∀ r, accessedReg? off size = some r →
          size = 8 ∧ off = (match r with | .cmd => 0x00 | .status => 0x08 | .din => 0x10 | .dout => 0x18 | .irqen => 0x20) := by
        intro r hr
        obtain ⟨rfl, h⟩ := accessedReg?_eq_some hr
        refine ⟨rfl, ?_⟩
        clear hd hp hr; revert h; cases r <;> revert off <;> decide
      rcases busWrite_cases hd with ⟨ha, hd⟩ | ⟨ha, rfl⟩ | ⟨ha, rfl⟩ | ⟨_, rfl⟩
      · obtain ⟨rfl, rfl⟩ := off_eq _ ha
        exact .inr (.inr (.inr (.inr (.inr ⟨v, rest, hp, hd⟩))))
      · obtain ⟨rfl, rfl⟩ := off_eq _ ha
        exact .inr (.inr (.inr (.inl ⟨v, rest, hp, rfl⟩)))
      · obtain ⟨rfl, rfl⟩ := off_eq _ ha
        exact .inr (.inr (.inr (.inr (.inl ⟨v, rest, hp, rfl⟩))))
      · exact .inr (.inr (.inl ⟨_, _, rfl⟩))

end Sys2Proof.Machine
end

