-- ==== Sys2Proof/Laws/Flags.lean ====
section
/-! SUPPORT. The STATUS register bit by bit. -/

namespace Sys2Proof.Machine

/-- Bit j of a value put together from the fields of STATUS, from bit 0 up. -/
theorem getLsbD_statusFields (r o c : BitVec 8) (e f : BitVec 4) (b i y : BitVec 1) (p : BitVec 3) (j : Nat) :
    BitVec.getLsbD (w := 64) (0#16 ++ r ++ o ++ c ++ 0#4 ++ e ++ f ++ b ++ p ++ 0#6 ++ i ++ y) j =
      if j < 1 then y.getLsbD j else if j < 2 then i.getLsbD (j - 1) else if j < 8 then false
      else if j < 11 then p.getLsbD (j - 8) else if j < 12 then b.getLsbD (j - 11) else if j < 16 then f.getLsbD (j - 12)
      else if j < 20 then e.getLsbD (j - 16) else if j < 24 then false else if j < 32 then c.getLsbD (j - 24)
      else if j < 40 then o.getLsbD (j - 32) else if j < 48 then r.getLsbD (j - 40) else false := by
  have h1 := BitVec.getLsbD_append (x := 0#16 ++ r ++ o ++ c ++ 0#4 ++ e ++ f ++ b ++ p ++ 0#6 ++ i) (y := y) (i := j)
  refine Eq.trans h1 ?_
  simp only [BitVec.getLsbD_append, BitVec.getLsbD_zero]
  repeat refine if_congr (by omega) rfl ?_
  rfl

end Sys2Proof.Machine
end

