-- ==== Sys2Proof/Laws/PerInstr.lean ====
section
/-! SUPPORT. Facts proved command by command. `EncodesOpcode`: a command's word carries its opcode, which reads back, and
no reserved bit (rules R90 and R92). -/

namespace Sys2Proof.Laws.EncodesOpcode

/-- The word of a command carries the command's opcode and has RES = 0. -/
def Statement (i : Instr) : Prop :=
  Opcode.ofCode? (opField (encode i)) = some i.opcode ∧ resField (encode i) = 0

theorem nop : Statement .nop := by simp [Statement, encode, Instr.op, Instr.opcode, Opcode.ofCode?]
theorem init (func : BitVec 4) (be : Bool) : Statement (.init func be) := by
  simp [Statement, encode, Instr.op, Instr.opcode, Opcode.ofCode?]
theorem absorb (n : BitVec 4) : Statement (.absorb n) := by simp [Statement, encode, Instr.op, Instr.opcode, Opcode.ofCode?]
theorem finalize : Statement .finalize := by simp [Statement, encode, Instr.op, Instr.opcode, Opcode.ofCode?]
theorem squeeze (n : BitVec 4) : Statement (.squeeze n) := by
  simp [Statement, encode, Instr.op, Instr.opcode, Opcode.ofCode?]
theorem finish : Statement .finish := by simp [Statement, encode, Instr.op, Instr.opcode, Opcode.ofCode?]
theorem permute : Statement .permute := by simp [Statement, encode, Instr.op, Instr.opcode, Opcode.ofCode?]
theorem laneWr (idx : BitVec 5) : Statement (.laneWr idx) := by
  simp [Statement, encode, Instr.op, Instr.opcode, Opcode.ofCode?]
theorem laneRd (idx : BitVec 5) : Statement (.laneRd idx) := by
  simp [Statement, encode, Instr.op, Instr.opcode, Opcode.ofCode?]
theorem clrerr : Statement .clrerr := by simp [Statement, encode, Instr.op, Instr.opcode, Opcode.ofCode?]

end Sys2Proof.Laws.EncodesOpcode
end

