-- ==== Sys2Proof/Tests/Slice0.lean ====
section
/-! SUPPORT. Tests: ill-formed commands, words written out from rule R98, one step per command and the vectors of
95_test_vectors.md (each test names its own), and for every obligation with hypotheses a witness that meets them. -/

namespace Sys2Proof.Tests

open Sys2Proof.Machine

/-! ## States the tests start from -/

/-- A session in phase `p` under `f`, with zero lanes. -/
def sess (p : Phase) (f : Func) (cursor outcnt : BitVec 8) : State :=
  { State.reset with phase := p, func := f, cursor := cursor, outcnt := outcnt }

/-- The state with a command completing. -/
def completing (s : State) : State := { s with busy := true }

/-- The state under the error lock. -/
def locked (e : ErrCode) (s : State) : State := { s with err := e }

/-- The state with one input to come. -/
def facing (e : Event) (s : State) : State := { s with pending := [e] }

/-- STATUS after the word is issued, with the lanes it is given left unread. -/
def statusAfter (w : Word) (s : State) : Option Word :=
  match issueCommand w s with
  | .next t => some t.status
  | .fault _ => none
  | .refused _ => none

/-- ERR after the word is issued. -/
def errAfter (w : Word) (s : State) : Option (BitVec 4) :=
  match issueCommand w s with
  | .next t => some t.err.code
  | .fault _ => none
  | .refused _ => none

/-- A field of the state after one step on an input. -/
def after {α : Type} (f : State → α) (e : Event) (s : State) : Option α :=
  match step (facing e s) with
  | .next t => some (f t)
  | .fault _ => none
  | .refused _ => none

/-! ## Well-formedness: each check refuses (rule R93) -/

theorem test_wellFormed_refuses_init_func_7 : ¬ (Instr.init 7 false).WellFormed := by decide
theorem test_wellFormed_refuses_init_func_14 : ¬ (Instr.init 14 true).WellFormed := by decide
theorem test_wellFormed_refuses_absorb_9 : ¬ (Instr.absorb 9).WellFormed := by decide
theorem test_wellFormed_refuses_squeeze_9 : ¬ (Instr.squeeze 9).WellFormed := by decide
theorem test_wellFormed_refuses_laneWr_25 : ¬ (Instr.laneWr 25).WellFormed := by decide
theorem test_wellFormed_refuses_laneRd_25 : ¬ (Instr.laneRd 25).WellFormed := by decide

/-! ## Words, written out from the formats of rules R90 to R93 and the examples of R98 and R100 -/

theorem test_decode_nop : decode 0x0 = .command .nop := by decide
theorem test_decode_init : decode 0x1501 = .command (.init 5 true) := by decide
theorem test_decode_init_raw : decode 0xF01 = .command (.init 15 false) := by decide
theorem test_decode_absorb : decode 0x802 = .command (.absorb 8) := by decide
theorem test_decode_finalize : decode 0x3 = .command .finalize := by decide
theorem test_decode_squeeze : decode 0x404 = .command (.squeeze 4) := by decide
theorem test_decode_finish : decode 0x5 = .command .finish := by decide
theorem test_decode_permute : decode 0x6 = .command .permute := by decide
theorem test_decode_laneWr : decode 0x307 = .command (.laneWr 3) := by decide
theorem test_decode_laneRd : decode 0x1808 = .command (.laneRd 24) := by decide
theorem test_decode_clrerr : decode 0x9 = .command .clrerr := by decide
/-- Reserved opcodes at both ends (rule R97). -/
theorem test_decode_refuses_opcodes : decode 0x0A = .illegalOpcode ∧ decode 0xFF = .illegalOpcode := by decide
/-- The highest reserved bit, and w[13] before CONFIG (V-ERR-4). -/
theorem test_decode_refuses_reserved_bits :
    decode 0x8000000000000006 = .illegalOperand .permute ∧ decode 0x2701 = .illegalOperand .init := by decide
theorem test_encode_laneRd : encode (.laneRd 24) = 0x1808 := by decide
theorem test_encode_init : encode (.init 5 true) = 0x1501 := by decide
theorem test_decodeTableWord : decodeTableWord 64 0x302 = some (.absorb 3) := by decide

/-! ## One step per command (95_test_vectors.md sections 5 and 6) -/

/-- V-CMD-1, and the reserved word of V-ERR-3 from reset. -/
theorem test_reset_status : State.reset.status = 0 ∧ statusAfter 0x10A State.reset = some 0x30000 := by decide
/-- The first step after reset runs the word the host placed. -/
theorem test_withFetchWord : (match step (State.reset.withFetchWord 64 0x101) with
    | .next t => t.status
    | .fault _ => 0
    | .refused _ => 0) = 0x0000880000001100 := by decide

/-- V-ERR-19 and V-ERR-20. -/
theorem test_nop : statusAfter 0x0 (completing (sess .squeezing .sha3_256 0 0)) = some 0x0000880000001301 ∧
    statusAfter 0x100 (completing (sess .squeezing .sha3_256 0 0)) = some 0x0000880000031301 := by decide
/-- V-CMD-2, V-CMD-3 and V-CMD-4. -/
theorem test_init : statusAfter 0x101 State.reset = some 0x0000880000001100 ∧
    statusAfter 0x1501 State.reset = some 0x0000880000005900 ∧ statusAfter 0xF01 State.reset = some 0x000000000000F500 := by
  decide
/-- V-ERR-1, V-ERR-4 and V-ERR-18. -/
theorem test_init_errors : statusAfter 0x701 State.reset = some 0x10000 ∧ errAfter 0x2701 State.reset = some 3 ∧
    errAfter 0x701 (completing (sess .squeezing .sha3_256 0 0)) = some 4 := by decide
/-- P1: A[0] and STATUS after ABSORB 3 of "abc". -/
theorem test_absorb :
    after (fun t => (readLane t.lanes 0, t.status)) (cmd (.absorb 3)) { sess .created .sha3_256 0 0 with din := 0x636261 }
      = some (0x0000000000636261, 0x0000880003001200) := by decide
/-- V-CMD-10: CURSOR 133 of 136, eight bytes: the block fills, five bytes go to the next one. -/
theorem test_absorb_fills_block : statusAfter 0x802 (sess .absorbing .sha3_256 133 0) = some 0x0000880005001201 := by
  decide +kernel
/-- V-CMD-6, and V-ERR-13 in SQUEEZING. -/
theorem test_finalize : statusAfter 0x3 (sess .absorbing .sha3_256 0 0) = some 0x0000880000001301 ∧
    statusAfter 0x3 (sess .squeezing .sha3_256 0 0) = some 0x0000880000021300 := by decide +kernel
/-- V-PAD-1 and V-PAD-2: the block before the permutation. -/
theorem test_finalize_padding :
    (let A := padLanes { sess .absorbing .sha3_256 3 0 with lanes := writeLane zeroLanes 0 0x636261 };
      readLane A 0 = 0x0000000006636261 ∧ readLane A 16 = 0x8000000000000000) ∧
    readLane (padLanes { sess .absorbing .sha3_256 135 0 with lanes := writeLane zeroLanes 16 0x0061616161616161 }) 16
      = 0x8661616161616161 := by decide +kernel
/-- P1's second SQUEEZE and V-CMD-14's word, from a state byte by byte. -/
theorem test_squeeze :
    after (fun t => (t.dout, t.status)) (cmd (.squeeze 8))
      { sess .squeezing .sha3_256 8 8 with lanes := writeLane zeroLanes 1 0xBD90D36B2D175C04 }
      = some (0xBD90D36B2D175C04, 0x0000881010001300) := by decide
/-- P4: SQUEEZE 8 past D = 28 is refused, SQUEEZE 4 ends the output; P3's 22nd SQUEEZE permutes first. -/
theorem test_squeeze_limits : statusAfter 0x804 (sess .squeezing .sha3_224 24 24) = some 0x0000901818020300 ∧
    statusAfter 0x404 (sess .squeezing .sha3_224 24 24) = some 0x0000901C00000400 ∧
    statusAfter 0x804 (sess .squeezing .shake128 168 0) = some 0x0000A80008004301 := by decide +kernel
/-- V-CMD-9 and V-ERR-11. -/
theorem test_finish : statusAfter 0x5 (sess .squeezing .sha3_256 0 0) = some 0x0000880000001400 ∧
    errAfter 0x5 (sess .created .sha3_256 0 0) = some 2 := by decide
/-- V-PERM-1 by one PERMUTE on the zero state: lane and value, in the rows of the vector's table. -/
theorem test_permute : (after State.lanes (cmd .permute) (sess .raw .raw 0 0)).map (fun A =>
    (List.range 9).map fun i => ([i, i + 9, i + 18].filter (· < 25)).map fun l => (l, readLane A l)) = some
    [[(0, 0xF1258F7940E1DDE7), (9, 0x30935AB7D08FFC64), (18, 0xB87C5A554FD00ECB)],
     [(1, 0x84D5CCF933C0478A), (10, 0xEB5AA93F2317D635), (19, 0x8C3EE88A1CCF32C8)],
     [(2, 0xD598261EA65AA9EE), (11, 0xA9A6E6260D712103), (20, 0x940C7922AE3A2614)],
     [(3, 0xBD1547306F80494D), (12, 0x81A57C16DBCF555F), (21, 0x1841F924A2C509E4)],
     [(4, 0x8B284E056253D057), (13, 0x43B831CD0347C826), (22, 0x16F53526E70465C2)],
     [(5, 0xFF97A42D7F8E6FD4), (14, 0x01F22F1A11A5569F), (23, 0x75F644E97F30A13B)],
     [(6, 0x90FEE5A0A44647C4), (15, 0x05E5635A21D9AE61), (24, 0xEAF1FF7B5CECA249)],
     [(7, 0x8C5BDA0CD6192E76), (16, 0x64BEFEF28CC970F2)],
     [(8, 0xAD30A6F71B19059C), (17, 0x613670957BC46611)]] := by decide +kernel
/-- V-BUSY-3. -/
theorem test_permute_busy : statusAfter 0x6 (sess .raw .raw 0 0) = some 0x000000000000F501 ∧
    errAfter 0x6 (completing (sess .raw .raw 0 0)) = some 4 := by decide +kernel
/-- V-CMD-11, BE = 1: lanes ignore BE. -/
theorem test_laneWr :
    after (fun t => readLane t.lanes 3) (cmd (.laneWr 3)) { sess .raw .raw 0 0 with din := 0x0123456789ABCDEF, be := true }
      = some 0x0123456789ABCDEF := by decide
/-- V-ERR-12, and IDX 25. -/
theorem test_laneWr_errors : errAfter 0x7 (sess .created .sha3_256 0 0) = some 2 ∧
    errAfter 0x1907 (sess .raw .raw 0 0) = some 3 := by decide
/-- V-CMD-11's read, BE = 1. -/
theorem test_laneRd :
    after State.dout (cmd (.laneRd 3)) { sess .raw .raw 0 0 with lanes := writeLane zeroLanes 3 0x0123456789ABCDEF, be := true }
      = some 0x0123456789ABCDEF := by decide
/-- V-ERR-8 and V-ERR-12. -/
theorem test_laneRd_errors : errAfter 0x1908 (sess .created .sha3_256 0 0) = some 3 ∧
    errAfter 0x1808 (sess .created .sha3_256 0 0) = some 2 := by decide
/-- V-ERR-22 and V-ERR-21: CLRERR clears, its neighbour 0x109 is ignored. -/
theorem test_clrerr : statusAfter 0x9 (locked .illegal (sess .created .sha3_256 0 0)) = some 0x0000880000001100 ∧
    statusAfter 0x109 (locked .illegal (sess .created .sha3_256 0 0)) = some 0x0000880000031100 := by decide
/-- V-ERR-16 and V-ERR-17: the order of the checks. -/
theorem test_error_order : statusAfter 0x902 (completing (sess .squeezing .sha3_256 0 0)) = some 0x0000880000041301 ∧
    statusAfter 0x0B (completing (sess .squeezing .sha3_256 0 0)) = some 0x0000880000031301 := by decide

/-! ## The port -/

/-- V-ERR-23: completion under the lock. -/
theorem test_completion : after State.status .engineTurn (locked .illegal (completing (sess .raw .raw 0 0)))
    = some 0x000000000003F500 := by decide
/-- V-BUS-1, V-BUS-3, V-BUS-4 and V-BUS-5. -/
theorem test_bus_refused : after State.response (.write 0x08 8 1) State.reset = some (some .writeSlverr) ∧
    after State.response (.read 0x28 8) State.reset = some (some (.readSlverr 0)) ∧
    after State.response (.read 0x04 8) State.reset = some (some (.readSlverr 0)) ∧
    after State.response (.read 0x08 4) State.reset = some (some (.readSlverr 0)) := by decide
/-- V-BUS-6 and V-BUS-8. -/
theorem test_bus_writes : after State.din (.write 0x10 4 1) State.reset = some 0 ∧
    after (readReg .irqen) (wr .irqen 0xFFFFFFFFFFFFFFFC) State.reset = some 0 := by decide
/-- V-BUSY-1: DOUT masked while BUSY. -/
theorem test_dout_masked :
    after State.response (rd .dout) (completing { State.reset with dout := 5 }) = some (some (.readOkay 0)) := by decide
/-- V-IRQ-1 and V-IRQ-2. -/
theorem test_irq : after State.status (wr .irqen 1) State.reset = some 2 ∧
    ({ completing (sess .raw .raw 0 0) with irqen := 3 } : State).status = 0x000000000000F501 ∧
    (locked .illegal { sess .raw .raw 0 0 with irqen := 3 } : State).status = 0x000000000003F502 := by decide
/-- V-RESET-1. -/
theorem test_reset : after State.status .reset (locked .busy (completing { sess .squeezing .shake128 8 0 with irqen := 3 }))
    = some 0 := by decide
/-- P1 and P5: the third DOUT word, least and most significant byte first. -/
theorem test_byte_order : packOut false [0x85, 0x5F, 0x08, 0x6E, 0x3E, 0x9D, 0x52, 0x5B] = 0x5B529D3E6E085F85 ∧
    packOut true [0x85, 0x5F, 0x08, 0x6E, 0x3E, 0x9D, 0x52, 0x5B] = 0x855F086E3E9D525B ∧
    inBytes true 0x6162630000000000 3 = [0x61, 0x62, 0x63] := by decide

/-! ## The permutation (95_test_vectors.md section 3) -/

/-- V-ROT-1 to V-ROT-6. -/
theorem test_rot64 : rot64 0x8000000000000001 1 = 0x3 ∧ rot64 0x0123456789ABCDEF 0 = 0x0123456789ABCDEF ∧
    rot64 1 63 = 0x8000000000000000 ∧ rot64 0x0123456789ABCDEF 4 = 0x123456789ABCDEF0 ∧
    rot64 0x0123456789ABCDEF 36 = 0x9ABCDEF012345678 ∧ rot64 0xFFFFFFFFFFFFFFFF 17 = 0xFFFFFFFFFFFFFFFF := by decide
/-- V-THETA-3. -/
theorem test_theta : theta (writeLane zeroLanes 7 0x8000000000000000) =
    #v[0, 1, 0, 0x8000000000000000, 0, 0, 1, 0x8000000000000000, 0x8000000000000000, 0, 0, 1, 0, 0x8000000000000000, 0,
       0, 1, 0, 0x8000000000000000, 0, 0, 1, 0, 0x8000000000000000, 0] := by decide +kernel
/-- V-RHO-1, lanes by rows of y. -/
theorem test_rho : (rho (Vector.replicate 25 1)).toList =
    [0x0000000000000001, 0x0000000000000002, 0x4000000000000000, 0x0000000010000000, 0x0000000008000000] ++
    [0x0000001000000000, 0x0000100000000000, 0x0000000000000040, 0x0080000000000000, 0x0000000000100000] ++
    [0x0000000000000008, 0x0000000000000400, 0x0000080000000000, 0x0000000002000000, 0x0000008000000000] ++
    [0x0000020000000000, 0x0000200000000000, 0x0000000000008000, 0x0000000000200000, 0x0000000000000100] ++
    [0x0000000000040000, 0x0000000000000004, 0x2000000000000000, 0x0100000000000000, 0x0000000000004000] := by decide +kernel
/-- V-PI-1. -/
theorem test_pi : pi (ofCoords fun x y => BitVec.ofNat 64 (x.val + 5 * y.val)) =
    #v[0, 6, 12, 18, 24, 3, 9, 10, 16, 22, 1, 7, 13, 19, 20, 4, 5, 11, 17, 23, 2, 8, 14, 15, 21] := by decide +kernel
/-- V-CHI-1. -/
theorem test_chi :
    (let A := chi (ofCoords fun x y => if y = 0 then
        [0xF0F0F0F0F0F0F0F0, 0xFF00FF00FF00FF00, 0xFFFF0000FFFF0000, 0, 0].getD x.val 0 else 0);
      [readLane A 0, readLane A 1, readLane A 2, readLane A 3, readLane A 4]) =
    [0xF00FF0F0F00FF0F0, 0xFF00FF00FF00FF00, 0xFFFF0000FFFF0000, 0xF0F0F0F0F0F0F0F0, 0x0F000F000F000F00] := by decide +kernel
/-- V-ROUND-1 and V-ROUND-2. -/
theorem test_round : round 1 (round 0 zeroLanes) =
    #v[0x8083, 0x0000100000000000, 0x8000, 1, 0x0000100000008000, 0, 0x0000200000200000, 0, 0x0000200000000000, 0x200000,
       2, 0x200, 0, 0x202, 0, 0x10000400, 0, 0x400, 0x10000000, 0, 0x0000010000000000, 0, 0x0000010000000004, 0, 4] := by
  decide +kernel
/-- Rules R130 and R131: the last round constant, by the LFSR. -/
theorem test_rc : rcDerived 23 = 0x8000000080008008 := by decide +kernel

/-! ## Witnesses: for each obligation with hypotheses, values that meet them, clause by clause, at the ends of the
ranges -/

/-- Inputs of every kind can come next. -/
theorem facing_next (e : Event) (s : State) : (facing e s).NextInput e [] := rfl

/-- States of every phase meet the session invariant. -/
theorem inv_created : (sess .created .sha3_256 0 0).Inv := by constructor <;> decide +kernel
theorem inv_absorbing : (sess .absorbing .sha3_256 135 0).Inv := by constructor <;> decide +kernel
theorem inv_squeezing : (sess .squeezing .sha3_224 20 20).Inv := by constructor <;> decide +kernel
theorem inv_squeezing_xof : (sess .squeezing .shake128 168 0).Inv := by constructor <;> decide +kernel
theorem inv_finished : (sess .finished .sha3_224 0 28).Inv := by constructor <;> decide +kernel
theorem inv_raw : (completing (sess .raw .raw 0 0)).Inv := by constructor <;> decide +kernel

/-- How a state meets the hypotheses of `RefusesWords`: a word of the opcode while BUSY = 1, one that is not legal, and
a legal one outside the phases. -/
def Refusable (code : BitVec 8) (legal : Nat → Prop) (phases : List Phase) (w bad : Word) (s : State) : Prop :=
  s.err = .noError ∧ s.busy = false ∧ (completing s).err = .noError ∧ w.extractLsb' 0 8 = code ∧
    bad.extractLsb' 0 8 = code ∧ ¬ legal (bad.toNat / 256) ∧ legal (w.toNat / 256) ∧ s.phase ∉ phases

theorem witness_ResetEventRestoresTheEngine :
    (facing .reset (locked .busy (completing (sess .squeezing .shake128 8 0)))).NextInput .reset [] := rfl

theorem witness_DecodeOfEncode : (Instr.init 15 true).WellFormed ∧ (Instr.init 5 false).WellFormed ∧
    (Instr.absorb 8).WellFormed ∧ (Instr.squeeze 0).WellFormed ∧ (Instr.laneWr 24).WellFormed ∧
    (Instr.laneRd 0).WellFormed := by decide

theorem witness_EncodeOfDecode : decode 0x1F01 = .command (.init 15 true) ∧ decode 0x1808 = .command (.laneRd 24) := by
  decide

theorem witness_WordsDecodeByMatchAndMask : (0x1F01 : Word) &&& tableMask .init = tableMatch .init ∧
    tableLegal .init 0x1F01 ∧ (0x1808 : Word) &&& tableMask .laneRd = tableMatch .laneRd ∧ tableLegal .laneRd 0x1808 := by
  unfold tableLegal; decide

/-- A word for each clause: OP, ARG and RES of the word are the numbers, and meet the clause's conditions. -/
theorem witness_DecodeVerdictInOrder :
    (9 < (0x0A : Word).toNat % 256) ∧
    ((0x2000 : Word).toNat % 256 ≤ 9 ∧ (0x2000 : Word).toNat / 8192 ≠ 0) ∧
    ((0x109 : Word).toNat % 256 = 9 ∧ (0x109 : Word).toNat / 8192 = 0 ∧ (0x109 : Word).toNat / 256 % 32 ≠ 0) ∧
    ((0x1002 : Word).toNat % 256 = 2 ∧ (0x1002 : Word).toNat / 256 % 32 = 16) ∧
    ((0x904 : Word).toNat % 256 = 4 ∧ (0x904 : Word).toNat / 256 % 32 = 9) ∧
    ((0x1907 : Word).toNat % 256 = 7 ∧ (0x1907 : Word).toNat / 256 % 32 = 25) ∧
    ((0xE01 : Word).toNat % 256 = 1 ∧ (0xE01 : Word).toNat / 256 % 32 % 16 = 14) ∧
    ((0x9 : Word).toNat % 256 = 9 ∧ (0x9 : Word).toNat / 256 % 32 = 0) ∧
    ((0x804 : Word).toNat % 256 = 4 ∧ (0x804 : Word).toNat / 256 % 32 = 8) ∧
    ((0x1808 : Word).toNat % 256 = 8 ∧ (0x1808 : Word).toNat / 256 % 32 = 24) ∧
    ((0x1F01 : Word).toNat % 256 = 1 ∧ (0x1F01 : Word).toNat / 256 % 32 % 16 = 15) := by decide

theorem witness_StepRunsTheDecodedCommand :
    (facing (.write 0x00 8 0x302) (sess .created .sha3_256 0 0)).NextInput (.write 0x00 8 0x302) [] ∧
    decode 0x302 = .command (.absorb 3) := ⟨rfl, by decide⟩

theorem witness_IssueReportsTheFirstFailedCheck :
    (sess .created .sha3_256 0 0).err = .noError ∧ decode 0xFF = .illegalOpcode ∧
    decode 0x902 = .illegalOperand .absorb ∧ decode 0x100 = .illegalOperand .nop ∧ decode 0x109 = .illegalOperand .clrerr ∧
    decode 0x701 = .badConfig ∧ (completing (sess .created .sha3_256 0 0)).busy = true ∧
    decode 0x802 = .command (.absorb 8) ∧ decode 0x6 = .command .permute ∧ (.created ∉ phaseRow (Instr.opcode .permute)) ∧
    decode 0x504 = .command (.squeeze 5) ∧ (sess .squeezing .sha3_224 24 24).func.outputBytes = some 28 ∧
    28 < (sess .squeezing .sha3_224 24 24).outcnt.toNat + (5 : BitVec 4).toNat ∧
    decode 0x404 = .command (.squeeze 4) ∧ .squeezing ∈ phaseRow (Instr.opcode (.squeeze 4)) ∧
    (sess .squeezing .sha3_224 24 24).outcnt.toNat + (4 : BitVec 4).toNat ≤ 28 ∧
    decode 0x0 = .command .nop ∧ decode 0x9 = .command .clrerr ∧ .created ∈ phaseRow (Instr.opcode .nop) := by decide

theorem witness_ErrorLockIgnoresEverythingButClrerr :
    (locked .illegal (completing State.reset)).err ≠ .noError ∧ (0x109 : Word) ≠ 0x9 ∧
    (∃ t, step (facing (cmd .nop) (locked .illegal State.reset)) = .next t) ∧
    (facing .engineTurn (locked .illegal (completing State.reset))).NextInput .engineTurn [] ∧
    (facing (wr .din 7) (locked .illegal State.reset)).NextInput (wr .din 7) [] ∧
    (facing (wr .irqen 7) (locked .illegal State.reset)).NextInput (wr .irqen 7) [] ∧
    (facing (rd .dout) (locked .illegal State.reset)).NextInput (rd .dout) [] :=
  ⟨by decide, by decide, ⟨_, rfl⟩, rfl, rfl, rfl, rfl⟩

theorem witness_RaisedErrorChangesOnlyErr :
    ∃ t, issueCommand 0xFF State.reset = .next t ∧ State.reset.err = .noError ∧ t.err ≠ .noError :=
  ⟨_, rfl, by decide, by decide⟩

theorem witness_CommandsOutsideTheirPhasesRaiseSequence :
    (Instr.laneRd 24).WellFormed ∧ (sess .created .sha3_256 0 0).Ready ∧
    .created ∉ phaseRow (Instr.opcode (.laneRd 24)) ∧ .raw ∈ phaseRow (Instr.opcode (.laneRd 24)) ∧
    (sess .squeezing .sha3_224 20 20).Ready ∧ .squeezing ∈ phaseRow (Instr.opcode (.squeeze 8)) ∧
    (∀ n d, Instr.squeeze 8 = .squeeze n → (sess .squeezing .sha3_224 20 20).func.outputBytes = some d →
      (sess .squeezing .sha3_224 20 20).outcnt.toNat + n.toNat ≤ d) := by
  refine ⟨by decide, ⟨rfl, rfl⟩, by decide, by decide, ⟨rfl, rfl⟩, by decide, ?_⟩
  intro n d hn hd
  cases hn; cases hd; decide

theorem witness_PhaseFollowsTheTransitionTable :
    (∃ t, exec (.squeeze 8) (sess .squeezing .sha3_224 20 20) = .next t ∧ t.err = .noError ∧ t.outcnt.toNat = 28) ∧
    (∃ t, issueCommand 0x6 (sess .created .sha3_256 0 0) = .next t ∧ t.err ≠ .noError) ∧
    (∃ t, step (facing .reset (sess .raw .raw 0 0)) = .next t) ∧
    (∃ t, step (facing (wr .din 1) (sess .raw .raw 0 0)) = .next t ∧
      (∀ w rest, ¬ (facing (wr .din 1) (sess .raw .raw 0 0)).NextInput (.write 0x00 8 w) rest) ∧
      (∀ rest, ¬ (facing (wr .din 1) (sess .raw .raw 0 0)).NextInput .reset rest)) := by
  refine ⟨⟨_, rfl, by decide +kernel, by decide +kernel⟩, ⟨_, rfl, by decide⟩, ⟨_, rfl⟩, ⟨_, rfl, ?_, ?_⟩⟩ <;> intros <;>
    simp [State.NextInput, facing, wr, Reg.offset]

theorem witness_CommandsWhileBusyRaiseBusy :
    (completing (sess .raw .raw 0 0)).err = .noError ∧ (completing (sess .raw .raw 0 0)).busy = true ∧
    Instr.absorb 9 ≠ .nop ∧ Instr.absorb 9 ≠ .clrerr ∧ (0x0 : Word) ≠ 0x9 := by decide

theorem witness_NopHasNoEffect : (0x100 : Word).extractLsb' 0 8 = 0x00 ∧ (0x100 : Word) ≠ 0 ∧
    State.reset.err = .noError ∧ (locked .config State.reset).err ≠ .noError := by decide

theorem witness_InitStartsAFreshSession :
    (sess .finished .sha3_224 0 28).Ready ∧ (0x2701 : Word).extractLsb' 0 8 = 0x01 ∧
    (completing (sess .raw .raw 0 0)).busy = true ∧ (0x2701 : Word).toNat / 8192 ≠ 0 ∧
    (0x1E01 : Word).toNat / 8192 = 0 ∧ (0x601 : Word).toNat / 256 % 16 = 6 ∧ (0x1E01 : Word).toNat / 256 % 16 = 14 ∧
    (0x501 : Word).toNat / 256 % 16 = 5 ∧ (0x1F01 : Word).toNat / 256 % 16 = 15 := ⟨⟨rfl, rfl⟩, by decide⟩

/-- No byte; the last byte that leaves room; the byte that fills the block; eight bytes from the block's last byte. -/
theorem witness_AbsorbXorsBytesAtTheCursor :
    (sess .created .sha3_256 0 0).Ready ∧ (sess .absorbing .sha3_256 135 0).Ready ∧
    (0 : BitVec 4).toNat ≤ 8 ∧ (8 : BitVec 4).toNat ≤ 8 ∧
    (sess .created .sha3_256 0 0).cursor.toNat + (0 : BitVec 4).toNat < (sess .created .sha3_256 0 0).rate.toNat ∧
    (sess .absorbing .sha3_256 127 0).cursor.toNat + (8 : BitVec 4).toNat < (sess .absorbing .sha3_256 127 0).rate.toNat ∧
    (sess .absorbing .sha3_256 135 0).cursor.toNat < (sess .absorbing .sha3_256 135 0).rate.toNat ∧
    (sess .absorbing .sha3_256 135 0).rate.toNat = (sess .absorbing .sha3_256 135 0).cursor.toNat + (1 : BitVec 4).toNat ∧
    (sess .absorbing .sha3_256 135 0).rate.toNat ≤ (sess .absorbing .sha3_256 135 0).cursor.toNat + (8 : BitVec 4).toNat ∧
    Refusable 0x02 (fun a => a ≤ 8) [.created, .absorbing] 0x802 0x1002 (sess .raw .raw 0 0) := by
  refine ⟨⟨rfl, rfl⟩, ⟨rfl, rfl⟩, ?_⟩; unfold Refusable; decide

theorem witness_FinalizePadsAndPermutes :
    (sess .created .sha3_256 0 0).Ready ∧ (sess .absorbing .shake128 167 0).Ready ∧
    (sess .created .sha3_256 0 0).cursor.toNat < (sess .created .sha3_256 0 0).rate.toNat ∧
    (sess .created .sha3_256 0 0).cursor.toNat ≠ (sess .created .sha3_256 0 0).rate.toNat - 1 ∧
    (sess .absorbing .shake128 167 0).cursor.toNat = (sess .absorbing .shake128 167 0).rate.toNat - 1 ∧
    (sess .absorbing .shake128 167 0).func.outputBytes = none ∧
    (sess .absorbing .sha3_256 135 0).cursor.toNat = (sess .absorbing .sha3_256 135 0).rate.toNat - 1 ∧
    (sess .absorbing .sha3_256 135 0).func.outputBytes.isSome = true ∧
    Refusable 0x03 (fun a => a = 0) [.created, .absorbing] 0x3 0x103 (sess .squeezing .sha3_256 0 0) := by
  refine ⟨⟨rfl, rfl⟩, ⟨rfl, rfl⟩, ?_⟩; unfold Refusable; decide

/-- Inside a block; the block used up; the SQUEEZE that completes D; the one that would pass it. -/
theorem witness_SqueezeEmitsBytesAtTheCursor :
    (sess .squeezing .shake128 168 0).Inv ∧ (sess .squeezing .shake128 168 0).Ready ∧
    (∀ d, (sess .squeezing .shake128 168 0).func.outputBytes = some d →
      (sess .squeezing .shake128 168 0).outcnt.toNat + (8 : BitVec 4).toNat ≤ d) ∧
    (sess .squeezing .sha3_224 20 20).Inv ∧ (sess .squeezing .sha3_224 20 20).Ready ∧
    (∀ d, (sess .squeezing .sha3_224 20 20).func.outputBytes = some d →
      (sess .squeezing .sha3_224 20 20).outcnt.toNat + (8 : BitVec 4).toNat ≤ d) ∧
    (sess .squeezing .sha3_224 20 20).func.outputBytes =
      some ((sess .squeezing .sha3_224 20 20).outcnt.toNat + (8 : BitVec 4).toNat) ∧
    (sess .squeezing .sha3_224 20 20).func.outputBytes ≠
      some ((sess .squeezing .sha3_224 20 20).outcnt.toNat + (7 : BitVec 4).toNat) ∧
    (sess .squeezing .sha3_224 24 24).Ready ∧ (sess .squeezing .sha3_224 24 24).func.outputBytes = some 28 ∧
    28 < (sess .squeezing .sha3_224 24 24).outcnt.toNat + (5 : BitVec 4).toNat ∧
    Refusable 0x04 (fun a => a ≤ 8) [.squeezing] 0x804 0x904 (sess .finished .sha3_256 0 32) := by
  refine ⟨inv_squeezing_xof, ⟨rfl, rfl⟩, ?_, inv_squeezing, ⟨rfl, rfl⟩, ?_, by decide, by decide, ⟨rfl, rfl⟩, ?_⟩
  · intro d hd; cases hd
  · intro d hd; cases hd; decide
  · unfold Refusable; decide

theorem witness_FinishZeroesTheState : (sess .squeezing .sha3_224 20 20).Ready ∧
    Refusable 0x05 (fun a => a = 0) [.squeezing] 0x5 0x2005 (sess .created .sha3_256 0 0) := by
  refine ⟨⟨rfl, rfl⟩, ?_⟩; unfold Refusable; decide

theorem witness_PermuteAppliesThePermutation : (sess .raw .raw 0 0).Ready ∧
    Refusable 0x06 (fun a => a = 0) [.raw] 0x6 0x106 State.reset := by
  refine ⟨⟨rfl, rfl⟩, ?_⟩; unfold Refusable; decide

theorem witness_LaneWrWritesOneLane : (sess .raw .raw 0 0).Ready ∧ (24 : BitVec 5).toNat ≤ 24 ∧
    Refusable 0x07 (fun a => a ≤ 24) [.raw] 0x1807 0x1907 (sess .created .sha3_256 0 0) := by
  refine ⟨⟨rfl, rfl⟩, ?_⟩; unfold Refusable; decide

theorem witness_LaneRdReadsOneLane : (sess .raw .raw 0 0).Ready ∧ (24 : BitVec 5).toNat ≤ 24 ∧
    Refusable 0x08 (fun a => a ≤ 24) [.raw] 0x1808 0x1908 (sess .created .sha3_256 0 0) := by
  refine ⟨⟨rfl, rfl⟩, ?_⟩; unfold Refusable; decide

theorem witness_ClrerrClearsOnlyErr :
    (∃ t, exec .clrerr (locked .busy State.reset) = .next t ∧ (locked .busy State.reset).err ≠ .noError ∧
      t.err = .noError) ∧
    (0x109 : Word).extractLsb' 0 8 = 0x09 ∧ (0x109 : Word) ≠ 0x9 ∧ State.reset.err = .noError :=
  ⟨⟨_, rfl, by decide, by decide⟩, by decide⟩

/-- Each access of rule R61 can come next, in any state. -/
theorem witness_AcceptedBusAccesses (s : State) (v : Word) :
    (facing (.write 0x00 8 v) s).NextInput (.write 0x00 8 v) [] ∧
    (facing (.write 0x10 8 v) s).NextInput (.write 0x10 8 v) [] ∧
    (facing (.write 0x20 8 v) s).NextInput (.write 0x20 8 v) [] ∧
    (facing (.read 0x00 8) s).NextInput (.read 0x00 8) [] ∧ (facing (.read 0x08 8) s).NextInput (.read 0x08 8) [] ∧
    (facing (.read 0x10 8) s).NextInput (.read 0x10 8) [] ∧ (facing (.read 0x18 8) s).NextInput (.read 0x18 8) [] ∧
    (facing (.read 0x20 8) s).NextInput (.read 0x20 8) [] := ⟨rfl, rfl, rfl, rfl, rfl, rfl, rfl, rfl⟩

theorem witness_RefusedBusAccesses :
    (facing (.read 0x08 4) State.reset).NextInput (.read 0x08 4) [] ∧ (4 ≠ 8) ∧
    (facing (.read 0x04 8) State.reset).NextInput (.read 0x04 8) [] ∧ (0x04 : BitVec 8).toNat % 8 ≠ 0 ∧
    (facing (.read 0x28 8) State.reset).NextInput (.read 0x28 8) [] ∧ 0x28 ≤ (0x28 : BitVec 8).toNat ∧
    (facing (.write 0xF8 8 1) State.reset).NextInput (.write 0xF8 8 1) [] ∧ 0x28 ≤ (0xF8 : BitVec 8).toNat ∧
    (facing (.write 0x18 8 1) State.reset).NextInput (.write 0x18 8 1) [] :=
  ⟨rfl, by decide, rfl, by decide, rfl, by decide, rfl, by decide, rfl⟩

theorem witness_WindowIsAtBase : ∃ addr, addr < Config.base ∨ Config.base + 0x100 ≤ addr :=
  ⟨Config.base + 0x100, .inr (Nat.le_refl _)⟩

theorem witness_StatusFieldsAtTheirBits : State.reset.phase = .idle ∧ (sess .raw .raw 0 0).phase = .raw ∧
    (sess .created .sha3_256 0 0).phase = .created ∧ (sess .absorbing .sha3_512 0 0).phase = .absorbing ∧
    (sess .squeezing .shake128 0 0).phase = .squeezing ∧ (sess .finished .sha3_224 0 28).phase = .finished := by decide

theorem witness_RaisedErrorLocksAndAssertsIrq :
    ∃ t, issueCommand 0x6 { State.reset with irqen := 2 } = .next t ∧ ({ State.reset with irqen := 2 } : State).err = .noError ∧
      t.err ≠ .noError ∧ ({ State.reset with irqen := 2 } : State).irqen.getLsbD 1 = true := ⟨_, rfl, by decide⟩

theorem witness_BusySetExactlyWhenAPermutationRan :
    (sess .absorbing .sha3_256 135 0).Inv ∧ (∃ t, issueCommand 0x102 (sess .absorbing .sha3_256 135 0) = .next t) ∧
    (sess .absorbing .sha3_256 135 0).busy = false ∧ (completing (sess .raw .raw 0 0)).Inv ∧
    (∃ t, issueCommand 0x0 (completing (sess .raw .raw 0 0)) = .next t) ∧ (completing (sess .raw .raw 0 0)).busy = true :=
  ⟨inv_absorbing, ⟨_, rfl⟩, rfl, inv_raw, ⟨_, rfl⟩, rfl⟩

theorem witness_CompletionClearsBusyAndNothingElse :
    (facing .engineTurn (completing State.reset)).NextInput .engineTurn [] ∧ (completing State.reset).pending = [] ∧
    (completing State.reset).busy = true ∧ State.reset.busy = false := ⟨rfl, rfl, rfl, rfl⟩

theorem witness_BusyIsClearedOnlyByCompletionOrReset :
    (∃ t, step (completing State.reset) = .next t ∧ (completing State.reset).busy = true ∧ t.busy = false) ∧
    (∃ t, step (facing .engineTurn (completing State.reset)) = .next t ∧ t.busy = false) ∧
    (∃ t, step (facing .reset (completing State.reset)) = .next t ∧ t.busy = false) :=
  ⟨⟨_, rfl, rfl, rfl⟩, ⟨_, rfl, rfl⟩, ⟨_, rfl, rfl⟩⟩

theorem witness_DoutReadsZeroWhileBusy : (facing (rd .dout) (completing State.reset)).NextInput (rd .dout) [] ∧
    (facing (rd .dout) (completing State.reset)).busy = true ∧ (facing (rd .dout) State.reset).busy = false :=
  ⟨rfl, rfl, rfl⟩

theorem witness_StepKeepsTheSessionInvariant :
    (facing (cmd .finalize) (sess .absorbing .sha3_256 135 0)).Inv ∧
    ∃ t, step (facing (cmd .finalize) (sess .absorbing .sha3_256 135 0)) = .next t :=
  ⟨by constructor <;> decide +kernel, ⟨_, rfl⟩⟩

theorem witness_FuncAndBeComeFromTheLastInit :
    (∃ t, exec (.init Func.shake256.code true) State.reset = .next t ∧ State.reset.err = .noError ∧ t.err = .noError) ∧
    (∃ t, step (facing (cmd (.init 5 true)) State.reset) = .next t ∧ t.func ≠ State.reset.func ∧ t.be ≠ State.reset.be) ∧
    (∃ t, step (facing .reset (sess .raw .raw 0 0)) = .next t ∧ t.func ≠ Func.raw) ∧
    State.reset.Inv ∧ State.reset.phase = .idle := by
  refine ⟨⟨_, rfl, by decide⟩, ⟨_, rfl, by decide⟩, ⟨_, rfl, by decide⟩, ?_, rfl⟩
  constructor <;> decide +kernel

theorem witness_DinIsTheHostsAlone :
    (∃ t, step (facing (wr .din 7) State.reset) = .next t ∧ t.din ≠ State.reset.din) ∧
    (∃ t, step (facing .reset { State.reset with din := 7 }) = .next t ∧ t.din ≠ 7) ∧
    (∀ n, Instr.finalize ≠ .absorb n) ∧ (∀ idx, Instr.finalize ≠ .laneWr idx) ∧
    (∃ t, exec .finalize (sess .created .sha3_256 0 0) = .next t) :=
  ⟨⟨_, rfl, by decide⟩, ⟨_, rfl, by decide⟩, by simp, by simp, ⟨_, rfl⟩⟩

theorem witness_DoutIsTheEnginesAlone :
    (∃ t, step (facing (cmd (.laneRd 24)) { sess .raw .raw 0 0 with dout := 7 }) = .next t ∧ t.dout ≠ 7) ∧
    (∃ t, step (facing (cmd (.squeeze 8)) { sess .squeezing .shake128 0 0 with dout := 7 }) = .next t ∧ t.dout ≠ 7) ∧
    (∃ t, step (facing (cmd (.init 1 false)) { sess .squeezing .shake128 0 0 with dout := 7 }) = .next t ∧ t.dout ≠ 7) ∧
    (∃ t, step (facing .reset { State.reset with dout := 7 }) = .next t ∧ t.dout ≠ 7) ∧
    (facing (rd .dout) State.reset).NextInput (rd .dout) [] ∧ (∃ t, step (facing (rd .dout) State.reset) = .next t) :=
  ⟨⟨_, rfl, by decide +kernel⟩, ⟨_, rfl, by decide +kernel⟩, ⟨_, rfl, by decide +kernel⟩, ⟨_, rfl, by decide +kernel⟩, rfl,
    ⟨_, rfl⟩⟩

theorem witness_IrqenHoldsTwoEnables :
    (facing (wr .irqen 0xFFFFFFFFFFFFFFFF) State.reset).NextInput (wr .irqen 0xFFFFFFFFFFFFFFFF) [] ∧
    (∃ t, step (facing (wr .irqen 0xFFFFFFFFFFFFFFFF) State.reset) = .next t ∧ t.irqen ≠ State.reset.irqen) ∧
    (∃ t, step (facing .reset { State.reset with irqen := 3 }) = .next t ∧ t.irqen ≠ 3) :=
  ⟨rfl, ⟨_, rfl, by decide⟩, ⟨_, rfl, by decide⟩⟩

theorem witness_ControlIsIndependentOfLaneValues :
    (∃ t, step (facing (cmd (.absorb 8)) (sess .absorbing .sha3_256 135 0)) = .next t) ∧
    (sess .absorbing .sha3_256 135 0).phase ≠ .raw ∧ (sess .absorbing .sha3_256 135 0).phase ≠ .squeezing :=
  ⟨⟨_, rfl⟩, by decide⟩

theorem witness_InitHidesTheOldSession : (sess .squeezing .sha3_224 20 20).Ready ∧
    (∃ t, exec (.init 15 true) (sess .squeezing .sha3_224 20 20) = .next t) ∧ (24 : BitVec 5).toNat ≤ 24 :=
  ⟨⟨rfl, rfl⟩, ⟨_, rfl⟩, by decide⟩

theorem witness_FinalizeXorsThePaddingBytes :
    Func.sha3_256 ≠ .raw ∧ (1 = Func.sha3_256.rate.toNat - 135 % Func.sha3_256.rate.toNat) ∧
    (136 = Func.sha3_256.rate.toNat - 136 % Func.sha3_256.rate.toNat) ∧
    (sess .absorbing .sha3_256 135 0).func = .sha3_256 ∧ (sess .absorbing .sha3_256 135 0).phase = .absorbing ∧
    (sess .absorbing .sha3_256 135 0).cursor.toNat = 135 % Func.sha3_256.rate.toNat ∧
    (sess .absorbing .sha3_256 0 0).cursor.toNat = 136 % Func.sha3_256.rate.toNat ∧
    (sess .absorbing .sha3_256 135 0).err = .noError ∧ (sess .absorbing .sha3_256 135 0).busy = false := by decide

/-- Pieces and counts at both ends of their range are legal. -/
theorem legal_counts : LegalCounts [8, 0, 1] ∧ LegalCounts [8, 8, 8, 4] ∧ LegalCounts [8, 8, 8, 8, 8] := by
  unfold LegalCounts; decide

/-- D = 28 in four SQUEEZEs; an XOF has no limit. -/
theorem counts_fit : CountsFit .sha3_224 [8, 8, 8, 4] ∧ CountsFit .shake128 [8, 8, 8, 8, 8] := by
  refine ⟨?_, ?_⟩ <;> intro d hd <;> cases hd
  decide

theorem witness_AbsorptionIsIndependentOfTheSplit :
    (sess .created .sha3_256 0 0).Inv ∧ (sess .created .sha3_256 0 0).Ready ∧ (sess .created .sha3_256 0 0).phase = .created ∧
    LegalCounts (([(8, 1), (0, 0), (1, 2)] : List (BitVec 4 × Word)).map Prod.fst) :=
  ⟨inv_created, ⟨rfl, rfl⟩, rfl, legal_counts.1⟩

theorem witness_SessionComputesTheSponge : (sess .raw .raw 0 0).Ready ∧ Func.sha3_224 ≠ .raw ∧
    LegalCounts (([(8, 1), (0, 0), (1, 2)] : List (BitVec 4 × Word)).map Prod.fst) ∧ LegalCounts [8, 8, 8, 4] ∧
    CountsFit .sha3_224 [8, 8, 8, 4] := ⟨⟨rfl, rfl⟩, by decide, legal_counts.1, legal_counts.2.1, counts_fit.1⟩

theorem witness_OutputIsIndependentOfTheByteOrder : State.reset.Ready ∧
    LegalCounts (([(3, 0x636261)] : List (BitVec 4 × Word)).map Prod.fst) ∧
    LegalCounts (([(3, 0x6162630000000000)] : List (BitVec 4 × Word)).map Prod.fst) ∧ LegalCounts [8, 8, 8, 4] ∧
    CountsFit .sha3_224 [8, 8, 8, 4] ∧ message false [(3, 0x636261)] = message true [(3, 0x6162630000000000)] :=
  ⟨⟨rfl, rfl⟩, by unfold LegalCounts; decide, by unfold LegalCounts; decide, legal_counts.2.1, counts_fit.1, by decide⟩

theorem witness_XofOutputIsAPrefix : State.reset.Ready ∧
    LegalCounts (([(8, 1), (0, 0), (1, 2)] : List (BitVec 4 × Word)).map Prod.fst) ∧ LegalCounts [8, 8, 8, 4] ∧
    LegalCounts [8, 8, 8, 8, 8] ∧ requested [8, 8, 8, 4] ≤ requested [8, 8, 8, 8, 8] :=
  ⟨⟨rfl, rfl⟩, legal_counts.1, legal_counts.2.1, legal_counts.2.2, by decide⟩

theorem witness_OutputBytesReadBackInOrder : ([1, 2, 3, 4, 5, 6, 7, 8] : List Byte).length ≤ 8 ∧
    ([] : List Byte).length ≤ 8 ∧ 0 < 8 ∧ 7 < 8 := by decide

theorem witness_RotationMovesBitsAndComposes : 1 ≤ 63 ∧ 63 ≤ 63 ∧ 63 < 64 := by decide

theorem witness_StepMappingsByLaneIndex : 24 < 25 ∧ 0 < 25 := by decide

theorem witness_RhoOffsetsFollowTheRecurrence : 23 < 24 ∧ ((0, 1) : Fin 5 × Fin 5) ≠ (0, 0) := by decide

theorem witness_RoundConstantsFollowTheLfsr : 23 < 24 ∧ (roundConstant 23).getLsbD 63 = true := by decide

theorem witness_StateBytesAreTheirBits : 199 < 200 ∧ 7 < 8 ∧ 24 < 25 ∧ 24 = 199 / 8 := by decide

theorem witness_RoundsRunInOrder : 23 < 24 ∧ 0 < 24 := by decide

theorem witness_FunctionParametersAreTheTable : Func.shake256 ≠ .raw ∧ Func.sha3_512.outputBytes = some 64 := by decide

end Sys2Proof.Tests
end

section
/-! Proofs of the family 00_scope: no control depends on lane values (rules R5 and R135), and the parameters of the six
functions (rule R7). -/

namespace Sys2Proof.Machine

/-! ## The count of a SQUEEZE, by the kind of function (rules R35 and R169) -/

theorem countOutput_of_xof {s : State} {n : Nat} (h : s.func.outputBytes = none) : countOutput n s = s := by
  rw [countOutput, h]

theorem countOutput_of_fixed {s : State} {n d : Nat} (h : s.func.outputBytes = some d) :
    countOutput n s =
      if (s.outcnt + BitVec.ofNat 8 n).toNat = d then enterFinished (s.setOutcnt (s.outcnt + BitVec.ofNat 8 n))
      else s.setOutcnt (s.outcnt + BitVec.ofNat 8 n) := by
  rw [countOutput, h]
  rfl

/-! ## States that agree off the lanes -/

/-- The two states agree on every field but the lanes and DOUT, and on DOUT too when `keepDout` holds. -/
structure AgreeOffLanes (keepDout : Prop) (s t : State) : Prop where
  control : t = { s with lanes := t.lanes, dout := t.dout }
  dout : keepDout → t.dout = s.dout

theorem agreeOffLanes_refl (D : Prop) (s : State) : AgreeOffLanes D s s := ⟨rfl, fun _ => rfl⟩

section
variable {D : Prop} {s t : State}

theorem AgreeOffLanes.setLanes (h : AgreeOffLanes D s t) (A B : Lanes) :
    AgreeOffLanes D (s.setLanes A) (t.setLanes B) :=
  ⟨congrArg (State.setLanes B) h.control, h.dout⟩

/-- Where DOUT need not agree, it may take any two values. -/
theorem AgreeOffLanes.setDout (h : AgreeOffLanes D s t) (hD : ¬ D) (v w : Word) :
    AgreeOffLanes D (s.setDout v) (t.setDout w) :=
  ⟨congrArg (State.setDout w) h.control, fun d => absurd d hD⟩

/-- An update that reads neither the lanes nor DOUT, and changes neither, keeps the agreement; for a chain of field
updates both conditions hold by computation. -/
theorem AgreeOffLanes.map (h : AgreeOffLanes D s t) (f : State → State)
    (hf : ∀ (s : State) (B : Lanes) (d : Word), f { s with lanes := B, dout := d } = { f s with lanes := B, dout := d }
      := by intros; rfl)
    (hd : ∀ s : State, (f s).dout = s.dout := by intros; rfl) : AgreeOffLanes D (f s) (f t) := by
  have ht : f t = { f s with lanes := t.lanes, dout := t.dout } := by rw [← hf, ← h.control]
  refine ⟨by rw [ht], fun d => ?_⟩
  rw [hd, hd, h.dout d]

theorem AgreeOffLanes.markBusy (h : AgreeOffLanes D s t) {p q : Nat} (hq : q = p) :
    AgreeOffLanes D (s.markBusy p) (t.markBusy q) :=
  hq ▸ h.map _ (fun _ _ _ => by unfold State.markBusy; split <;> rfl) (State.markBusy_dout q)

theorem AgreeOffLanes.enterFinished (h : AgreeOffLanes D s t) : AgreeOffLanes D (enterFinished s) (enterFinished t) :=
  (h.setLanes zeroLanes zeroLanes).map (fun s => (s.setCursor 0).setPhase .finished)

/-- The count of a SQUEEZE reads FUNC and OUTCNT alone (rules R35 and R169). -/
theorem AgreeOffLanes.countOutput (h : AgreeOffLanes D s t) (n : Nat) :
    AgreeOffLanes D (countOutput n s) (countOutput n t) := by
  have hfunc : t.func = s.func := by rw [h.control]
  have hcnt : t.outcnt = s.outcnt := by rw [h.control]
  cases ho : s.func.outputBytes with
  | none =>
    rw [countOutput_of_xof ho, countOutput_of_xof (hfunc ▸ ho)]
    exact h
  | some d =>
    have hset := h.map (State.setOutcnt (s.outcnt + BitVec.ofNat 8 n))
    rw [countOutput_of_fixed ho, countOutput_of_fixed (hfunc ▸ ho), hcnt]
    split
    · exact hset.enterFinished
    · exact hset

end

theorem agreeOffLanes_setLanes (D : Prop) (s : State) (A : Lanes) : AgreeOffLanes D s (s.setLanes A) :=
  (agreeOffLanes_refl D s).setLanes s.lanes A

/-! ## The byte loops: when they permute does not depend on the lanes (rules R163 and R169) -/

/-- The two loops stand at the same cursor after the same number of permutations. -/
def Transfer.SameCounts (t u : Transfer) : Prop := u.cursor = t.cursor ∧ u.perms = t.perms

theorem AgreeOffLanes.setTransfer {D : Prop} {s t : State} {u v : Transfer} (h : AgreeOffLanes D s t)
    (huv : u.SameCounts v) : AgreeOffLanes D (s.setTransfer u) (t.setTransfer v) := by
  unfold State.setTransfer
  rw [huv.1]
  exact (h.setLanes _ _).map (State.setCursor u.cursor)

theorem absorbByte_sameCounts {t u : Transfer} (h : t.SameCounts u) (rate : BitVec 8) (b : Byte) :
    (absorbByte rate t b).SameCounts (absorbByte rate u b) := by
  obtain ⟨hc, hp⟩ := h
  unfold absorbByte
  rw [hc, hp]
  split <;> exact ⟨rfl, rfl⟩

theorem absorbBytes_sameCounts {t u : Transfer} (h : t.SameCounts u) (rate : BitVec 8) (bs : List Byte) :
    (absorbBytes rate t bs).SameCounts (absorbBytes rate u bs) := by
  induction bs generalizing t u with
  | nil => exact h
  | cons b bs ih => exact ih (absorbByte_sameCounts h rate b)

theorem refill_sameCounts {t u : Transfer} (h : t.SameCounts u) (rate : BitVec 8) :
    (refill rate t).SameCounts (refill rate u) := by
  unfold refill
  rw [h.1, h.2]
  split
  · exact ⟨rfl, rfl⟩
  · exact h

theorem squeezeBytes_sameCounts {t u : Transfer} (h : t.SameCounts u) (rate : BitVec 8) (n : Nat) :
    (squeezeBytes rate n t).2.SameCounts (squeezeBytes rate n u).2 := by
  induction n generalizing t u with
  | zero => exact h
  | succ n ih =>
    obtain ⟨hc, hp⟩ := refill_sameCounts h rate
    exact ih ⟨congrArg (· + 1) hc, hp⟩

/-! ## The effects of the commands -/

theorem absorbEffect_agrees (D : Prop) (n : Nat) (s : State) (A : Lanes) :
    AgreeOffLanes D (absorbEffect n s) (absorbEffect n (s.setLanes A)) := by
  have hloop := absorbBytes_sameCounts (t := s.transfer) (u := (s.setLanes A).transfer) ⟨rfl, rfl⟩ s.rate
    (inBytes s.be s.din n)
  have hphase := ((agreeOffLanes_setLanes D s A).setTransfer hloop).map (State.setPhase .absorbing)
  exact hphase.markBusy hloop.2

theorem squeezeEffect_agrees {D : Prop} (hD : ¬ D) (n : Nat) (s : State) (A : Lanes) :
    AgreeOffLanes D (squeezeEffect n s) (squeezeEffect n (s.setLanes A)) := by
  have hloop := squeezeBytes_sameCounts (t := s.transfer) (u := (s.setLanes A).transfer) ⟨rfl, rfl⟩ s.rate n
  have hdout := ((agreeOffLanes_setLanes D s A).setTransfer hloop).setDout hD
  exact ((hdout _ _).countOutput n).markBusy hloop.2

/-- The phases in which no command moves a lane's bits into DOUT: LANE_RD needs RAW, SQUEEZE needs SQUEEZING. -/
def State.HidesLanes (s : State) : Prop := s.phase ≠ .raw ∧ s.phase ≠ .squeezing

theorem effectOf_agrees {i : Instr} {s : State} (hi : allowedIn i.opcode s.phase = true) (A : Lanes) :
    AgreeOffLanes s.HidesLanes (effectOf i s) (effectOf i (s.setLanes A)) := by
  have hA := agreeOffLanes_setLanes s.HidesLanes s A
  cases i with
  | nop => exact hA
  | init func be =>
    simp only [effectOf]
    cases Func.ofCode? func with
    | none => exact hA
    | some f => exact agreeOffLanes_refl _ (initEffect f be s)
  | absorb n => exact absorbEffect_agrees _ n.toNat s A
  | finalize =>
    exact (hA.setLanes _ _).map (fun s => ((s.setCursor 0).setPhase .squeezing).setBusy true)
  | squeeze n =>
    have hp : s.phase = .squeezing := by simpa [allowedIn, Instr.opcode] using hi
    exact squeezeEffect_agrees (fun h => h.2 hp) n.toNat s A
  | finish => exact hA.enterFinished
  | permute => exact (hA.setLanes _ _).map (State.setBusy true)
  | laneWr idx => exact hA.setLanes _ _
  | laneRd idx =>
    have hp : s.phase = .raw := by simpa [allowedIn, Instr.opcode] using hi
    exact hA.setDout (fun h => h.1 hp) _ _
  | clrerr => exact hA.map clearError

/-! ## Command issue, the bus and the step -/

/-- Both runs go on, to states that agree off the lanes. -/
def OutcomesAgree (keepDout : Prop) (o o' : Host.Outcome State Fault Refusal) : Prop :=
  ∃ t t', o = .next t ∧ o' = .next t' ∧ AgreeOffLanes keepDout t t'

theorem AgreeOffLanes.outcomes {D : Prop} {t t' : State} (h : AgreeOffLanes D t t') :
    OutcomesAgree D (.next t) (.next t') := ⟨t, t', rfl, rfl, h⟩

/-- The checks at issue read BUSY and PHASE alone (rule R231). -/
theorem issueError_setLanes (op : Option Opcode) (v : Verdict) (o : Bool) (s : State) (A : Lanes) :
    issueError op v o (s.setLanes A) = issueError op v o s := rfl

theorem issue_agrees {D : Prop} {op : Option Opcode} {v : Verdict} {o : Bool} {effect : State → State} {s : State}
    (A : Lanes) (he : issueError op v o s = none → AgreeOffLanes D (effect s) (effect (s.setLanes A))) :
    AgreeOffLanes D (issue op v o effect s) (issue op v o effect (s.setLanes A)) := by
  have hA := agreeOffLanes_setLanes D s A
  obtain ⟨hl, h⟩ | ⟨c, hl, hc, h⟩ | ⟨hl, hc, h⟩ := issue_cases op v o effect s
  · rw [h, issue_locked (s := s.setLanes A) hl]
    exact hA
  · rw [h, issue_raises (s := s.setLanes A) hl hc]
    exact hA.map (raiseError c)
  · rw [h, issue_accepts (s := s.setLanes A) hl hc]
    exact he hc

theorem exec_agrees (i : Instr) (s : State) (A : Lanes) :
    OutcomesAgree s.HidesLanes (exec i s) (exec i (s.setLanes A)) := by
  by_cases hi : i ≠ .clrerr ∨ s.err = .noError
  · have ho : overrunOf i (s.setLanes A) = overrunOf i s := by cases i <;> rfl
    rw [exec_eq_issue hi, exec_eq_issue (s := s.setLanes A) hi, ho]
    refine (issue_agrees A fun hnone => ?_).outcomes
    obtain ⟨_, hop, _, _, hallowed, _⟩ := issueError_eq_none.1 hnone
    cases hop
    exact effectOf_agrees hallowed A
  · obtain ⟨rfl, hl⟩ : i = .clrerr ∧ s.err ≠ .noError := by tauto
    rw [exec_clrerr_locked hl, exec_clrerr_locked (s := s.setLanes A) hl]
    exact ((agreeOffLanes_setLanes _ s A).map clearError).outcomes

theorem issueCommand_agrees (w : Word) (s : State) (A : Lanes) :
    OutcomesAgree s.HidesLanes (issueCommand w s) (issueCommand w (s.setLanes A)) := by
  unfold issueCommand
  cases decode w with
  | command i => exact exec_agrees i s A
  | illegalOpcode | illegalOperand op | badConfig =>
    exact (issue_agrees A fun _ => agreeOffLanes_setLanes _ s A).outcomes

theorem busWrite_agrees (off : BitVec 8) (size : Nat) (v : Word) (s : State) (A : Lanes) :
    OutcomesAgree s.HidesLanes (busWrite off size v s) (busWrite off size v (s.setLanes A)) := by
  have hA (r : Response) := agreeOffLanes_setLanes s.HidesLanes (s.respond r) A
  unfold busWrite
  cases accessedReg? off size with
  | none => exact (hA .writeSlverr).outcomes
  | some r =>
    cases r with
    | cmd => exact issueCommand_agrees v (s.respond .writeOkay) A
    | status | dout => exact (hA .writeSlverr).outcomes
    | din => exact ((hA .writeOkay).map (State.setDin v)).outcomes
    | irqen => exact ((hA .writeOkay).map (State.setIrqen _)).outcomes

/-- No register read returns a lane: the answer on the port is the same (rule R27). -/
theorem busRead_setLanes (off : BitVec 8) (size : Nat) (s : State) (A : Lanes) :
    busRead off size (s.setLanes A) = (busRead off size s).setLanes A := by
  unfold busRead
  cases accessedReg? off size with
  | none => rfl
  | some r => cases r <;> rfl

theorem engineTurn_agrees (D : Prop) (s : State) (A : Lanes) :
    AgreeOffLanes D (engineTurn s) (engineTurn (s.setLanes A)) := by
  rw [engineTurn_eq, engineTurn_eq]
  exact agreeOffLanes_setLanes D (s.setBusy false) A

theorem deliver_agrees (e : Event) (s : State) (A : Lanes) :
    OutcomesAgree s.HidesLanes (deliver e s) (deliver e (s.setLanes A)) := by
  cases e with
  | read off size =>
    simp only [deliver, busRead_setLanes]
    exact (agreeOffLanes_setLanes _ _ A).outcomes
  | write off size v => exact busWrite_agrees off size v s A
  | engineTurn => exact (engineTurn_agrees _ s A).outcomes
  | reset => exact (agreeOffLanes_refl _ (applyReset s)).outcomes

/-- Two runs of a step, from states that differ in the lanes alone (rules R5 and R135). -/
theorem step_agrees (s : State) (A : Lanes) : OutcomesAgree s.HidesLanes (step s) (step (s.setLanes A)) := by
  unfold step
  rw [State.setLanes_pending]
  cases s.pending with
  | nil => exact (engineTurn_agrees _ s A).outcomes
  | cons e rest => exact deliver_agrees e (s.setPending rest) A

/-- Settles O44: each part of a step, run on two states that differ in the lanes alone, ends in states that agree off
the lanes. -/
theorem controlIsIndependentOfLaneValues : Obligations.ControlIsIndependentOfLaneValues := by
  intro s t A hs
  obtain ⟨u, t', hu, ht', h⟩ := step_agrees s A
  obtain rfl : t = u := by simpa [hs] using hu
  exact ⟨t', ht', h.control, fun hraw hsqueezing => h.dout ⟨hraw, hsqueezing⟩⟩

/-! ## The parameters of the functions -/

/-- Settles O60, function by function. -/
theorem functionParametersAreTheTable : Obligations.FunctionParametersAreTheTable := by
  refine ⟨fun f hf => ?_, fun f d hd => ?_⟩
  · cases f with
    | raw => exact absurd rfl hf
    | sha3_224 | sha3_256 | sha3_384 | sha3_512 | shake128 | shake256 => rfl
  · cases f with
    | raw | shake128 | shake256 => cases hd
    | sha3_224 | sha3_256 | sha3_384 | sha3_512 => cases hd; rfl

end Sys2Proof.Machine
end

section
/-! Proofs of the family 10_state: what STATUS shows, who changes DIN, DOUT, IRQEN, FUNC and BE, and the session
invariant. -/

namespace Sys2Proof.Machine

/-! ## The fields an effect leaves alone (rules R28, R29, R32 and R38) -/

/-- The count of a SQUEEZE leaves FUNC, BE, DIN and IRQEN alone. -/
theorem countOutput_frame (n : Nat) (s : State) :
    (countOutput n s).func = s.func ∧ (countOutput n s).be = s.be ∧ (countOutput n s).din = s.din ∧
      (countOutput n s).irqen = s.irqen := by
  obtain ⟨-, h⟩ | ⟨d, -, ⟨-, h⟩ | ⟨-, h⟩⟩ := countOutput_cases n s <;> rw [h] <;> exact ⟨rfl, rfl, rfl, rfl⟩

theorem squeezeEffect_frame (n : Nat) (s : State) :
    (squeezeEffect n s).func = s.func ∧ (squeezeEffect n s).be = s.be ∧ (squeezeEffect n s).din = s.din ∧
      (squeezeEffect n s).irqen = s.irqen := by
  simp [squeezeEffect, countOutput_frame]

theorem absorbEffect_frame (n : Nat) (s : State) :
    (absorbEffect n s).func = s.func ∧ (absorbEffect n s).be = s.be ∧ (absorbEffect n s).din = s.din ∧
      (absorbEffect n s).irqen = s.irqen ∧ (absorbEffect n s).dout = s.dout := by
  simp [absorbEffect]

/-- No command writes the host's registers DIN and IRQEN. -/
theorem effectOf_hostRegs (i : Instr) (s : State) : (effectOf i s).din = s.din ∧ (effectOf i s).irqen = s.irqen := by
  cases i with
  | init func be => simp only [effectOf]; cases Func.ofCode? func <;> exact ⟨rfl, rfl⟩
  | absorb n => simp [effectOf, absorbEffect_frame]
  | squeeze n => simp [effectOf, squeezeEffect_frame]
  | nop | finalize | finish | permute | laneWr idx | laneRd idx | clrerr => exact ⟨rfl, rfl⟩

/-- Only INIT writes FUNC and BE. -/
theorem effectOf_funcBe {i : Instr} {s : State} (hi : ∀ func be, i ≠ .init func be) :
    (effectOf i s).func = s.func ∧ (effectOf i s).be = s.be := by
  cases i with
  | init func be => exact absurd rfl (hi func be)
  | absorb n => simp [effectOf, absorbEffect_frame]
  | squeeze n => simp [effectOf, squeezeEffect_frame]
  | nop | finalize | finish | permute | laneWr idx | laneRd idx | clrerr => exact ⟨rfl, rfl⟩

/-- A command that changes DOUT is SQUEEZE, LANE_RD, or INIT, which writes 0. -/
theorem effectOf_dout {i : Instr} {s : State} (h : (effectOf i s).dout ≠ s.dout) :
    (∃ n, i = .squeeze n) ∨ (∃ idx, i = .laneRd idx) ∨ (∃ func be, i = .init func be ∧ (effectOf i s).dout = 0) := by
  cases i with
  | squeeze n => exact .inl ⟨n, rfl⟩
  | laneRd idx => exact .inr (.inl ⟨idx, rfl⟩)
  | init func be =>
    refine .inr (.inr ⟨func, be, rfl, ?_⟩)
    simp only [effectOf] at h ⊢
    cases hf : Func.ofCode? func with
    | some f => rfl
    | none => simp [hf] at h
  | absorb n => exact absurd (absorbEffect_frame n.toNat s).2.2.2.2 h
  | nop | finalize | finish | permute | laneWr idx | clrerr => exact absurd rfl h

/-! ## A step by what it may change -/

/-- The command passed every check of rule R231 in this state. -/
structure State.Accepts (s : State) (i : Instr) : Prop where
  err : s.err = .noError
  busy : s.busy = true → i = .nop ∨ i = .clrerr
  wellFormed : i.WellFormed
  allowed : allowedIn i.opcode s.phase = true
  fits : overrunOf i s = false

theorem State.Accepts.ready {s : State} {i : Instr} (h : s.Accepts i) (hn : i ≠ .nop) (hc : i ≠ .clrerr) :
    s.Ready :=
  ⟨h.err, Bool.eq_false_iff.2 fun hb => (h.busy hb).elim hn hc⟩

/-- The two states hold the same session and the same host registers, and the second is not BUSY unless the first is. -/
structure State.SameRegs (s t : State) : Prop where
  regs : t = { s with err := t.err, busy := t.busy, response := t.response, pending := t.pending }
  busy : s.busy = false → t.busy = false

/-- The state in which a command written to CMD runs: the write is off the inputs and answered (rules R27 and R61). -/
def State.atCommand (s : State) (rest : List Event) : State := (s.setPending rest).respond .writeOkay

theorem State.sameRegs_atCommand (s : State) (rest : List Event) : s.SameRegs (s.atCommand rest) := ⟨rfl, id⟩

/-- All that a step can do to the registers: nothing, reset, the host's write to DIN or IRQEN, or a command's effect. -/
theorem step_changes {s t : State} (h : step s = .next t) :
    s.SameRegs t ∨
    (∃ rest, s.NextInput .reset rest ∧ t = State.reset.setPending rest) ∨
    (∃ v rest, s.NextInput (.write 0x10 8 v) rest ∧ t = (s.atCommand rest).setDin v) ∨
    (∃ v rest, s.NextInput (.write 0x20 8 v) rest ∧ t = (s.atCommand rest).setIrqen (v.extractLsb' 0 2)) ∨
    (∃ w rest i, s.NextInput (.write 0x00 8 w) rest ∧ decode w = .command i ∧ (s.atCommand rest).Accepts i ∧
      t = effectOf i (s.atCommand rest)) := by
  obtain ⟨ht, -⟩ | hreset | ⟨r, rest, rfl⟩ | hdin | hirqen | ⟨w, rest, hp, hw⟩ := step_effect h
  · exact .inl ⟨by rw [ht], fun _ => by rw [ht]⟩
  · exact .inr (.inl hreset)
  · exact .inl ⟨rfl, id⟩
  · exact .inr (.inr (.inl hdin))
  · exact .inr (.inr (.inr (.inl hirqen)))
  · obtain ⟨c, rfl⟩ | ⟨i, hd, he, hb, hwf, ha, ho, ht⟩ := issueCommand_effect hw
    · exact .inl ⟨rfl, id⟩
    · exact .inr (.inr (.inr (.inr ⟨w, rest, i, hp, hd, ⟨he, hb, hwf, ha, ho⟩, ht⟩)))

/-- A write of 8 bytes to a register's offset reaches that register. -/
theorem step_wr {s : State} {r : Reg} {v : Word} {rest : List Event} (h : s.NextInput (wr r v) rest) :
    step s = writeReg r v (s.setPending rest) := by
  have hp : s.pending = .write r.offset 8 v :: rest := h
  rw [step, hp]
  cases r <;> rfl

theorem step_rd {s : State} {r : Reg} {rest : List Event} (h : s.NextInput (rd r) rest) :
    step s = .next ((s.setPending rest).respond (.readOkay (readReg r (s.setPending rest)))) := by
  have hp : s.pending = .read r.offset 8 :: rest := h
  rw [step, hp]
  cases r <;> rfl

/-- Settles O8: the write reaches CMD, and the word issued there is the command's. -/
theorem stepRunsTheDecodedCommand : Obligations.StepRunsTheDecodedCommand := by
  intro s rest w i hp hd
  calc step s = issueCommand w (s.atCommand rest) := step_wr (r := .cmd) hp
    _ = exec i (s.atCommand rest) := by rw [issueCommand, hd]

/-! ## STATUS (rules R30 and R36) -/

/-- Settles O29: a field of STATUS is what is left when the fields below it are taken off. -/
theorem statusFieldsAtTheirBits : Obligations.StatusFieldsAtTheirBits := by
  intro s
  refine ⟨?_, ?_, ?_, ?_, ?_, ?_, ?_, ?_, ?_, ?_, ?_, ?_, ?_, ?_, ?_, ?_, ?_, ?_⟩
  iterate 12
    · simp only [State.status, BitVec.extractLsb'_append_eq_of_le, BitVec.extractLsb'_append_eq_right,
        BitVec.extractLsb'_eq_self, BitVec.ofNat_eq_ofNat, Nat.reduceLeDiff, Nat.reduceSub, Nat.le_refl]
  · rintro (h | h) <;> simp [State.rate, h]
  · rintro (h | h | h | h) <;> simp [State.rate, h]
  · cases s.phase <;> rfl
  · cases s.func <;> rfl
  · cases s.err <;> rfl
  · cases s.func <;> rfl

/-! ## FUNC and BE (rule R32) -/

/-- An INIT of a function that records no error had its effect. -/
theorem exec_init_effect {f : Func} {be : Bool} {s t : State} (h : exec (.init f.code be) s = .next t)
    (hs : s.err = .noError) (ht : t.err = .noError) : t = initEffect f be s := by
  obtain ⟨hl, -⟩ | ⟨hl, -⟩ | ⟨c, -, hc, rfl⟩ | ⟨-, -, rfl⟩ := exec_cases h
  · exact absurd hs hl
  · exact absurd hs hl
  · exact absurd ht (issueError_ne_noError hc)
  · simp [effectOf]

/-- Settles O40: of all that a step can do, reset and INIT alone write FUNC and BE. -/
theorem funcAndBeComeFromTheLastInit : Obligations.FuncAndBeComeFromTheLastInit := by
  refine ⟨fun f be s t h hs ht => ?_, fun s t h hne => ?_, fun s hinv hidle => ?_⟩
  · rw [exec_init_effect h hs ht]
    exact ⟨rfl, rfl⟩
  · have keeps (hf : t.func = s.func) (hb : t.be = s.be) : False := hne.elim (· hf) (· hb)
    obtain ⟨hsame, -⟩ | ⟨rest, hp, -⟩ | ⟨v, rest, -, rfl⟩ | ⟨v, rest, -, rfl⟩ | ⟨w, rest, i, hp, hd, hacc, rfl⟩ :=
      step_changes h
    · exact (keeps (by rw [hsame]) (by rw [hsame])).elim
    · exact .inl ⟨rest, hp⟩
    · exact (keeps rfl rfl).elim
    · exact (keeps rfl rfl).elim
    · by_cases hi : ∃ func be, i = .init func be
      · obtain ⟨func, be, rfl⟩ := hi
        exact .inr ⟨w, rest, func, be, hp, hd, hacc.ready (by simp) (by simp)⟩
      · obtain ⟨hf, hb⟩ := effectOf_funcBe (s := s.atCommand rest) fun func be e => hi ⟨func, be, e⟩
        exact (keeps hf hb).elim
  · obtain ⟨-, -, -, -, hfunc, -⟩ := hinv.idle hidle
    rw [hfunc]
    rfl

/-! ## DIN (rule R28) -/

theorem countOutput_setDin (n : Nat) (v : Word) (s : State) :
    countOutput n (s.setDin v) = (countOutput n s).setDin v := by
  cases ho : s.func.outputBytes with
  | none => rw [countOutput_of_xof ho, countOutput_of_xof (s := s.setDin v) ho]
  | some d =>
    rw [countOutput_of_fixed ho, countOutput_of_fixed (s := s.setDin v) ho, apply_ite (State.setDin v)]
    rfl

theorem squeezeEffect_setDin (n : Nat) (v : Word) (s : State) :
    squeezeEffect n (s.setDin v) = (squeezeEffect n s).setDin v := by
  have markBusy_setDin (p : Nat) (u : State) : (u.setDin v).markBusy p = (u.markBusy p).setDin v := by
    unfold State.markBusy; split <;> rfl
  rw [squeezeEffect, squeezeEffect, ← markBusy_setDin, ← countOutput_setDin]
  rfl

/-- The effect of a command other than ABSORB and LANE_WR reads no DIN. -/
theorem effectOf_setDin {i : Instr} (ha : ∀ n, i ≠ .absorb n) (hl : ∀ idx, i ≠ .laneWr idx) (v : Word) (s : State) :
    effectOf i (s.setDin v) = (effectOf i s).setDin v := by
  cases i with
  | absorb n => exact absurd rfl (ha n)
  | laneWr idx => exact absurd rfl (hl idx)
  | squeeze n => exact squeezeEffect_setDin n.toNat v s
  | init func be => simp only [effectOf]; cases Func.ofCode? func <;> rfl
  | nop | finalize | finish | permute | laneRd idx | clrerr => rfl

theorem exec_setDin {i : Instr} (ha : ∀ n, i ≠ .absorb n) (hl : ∀ idx, i ≠ .laneWr idx) (v : Word) {s t : State}
    (h : exec i s = .next t) : exec i (s.setDin v) = .next (t.setDin v) := by
  have herr : issueError (some i.opcode) i.verdict (overrunOf i (s.setDin v)) (s.setDin v) =
      issueError (some i.opcode) i.verdict (overrunOf i s) s := by cases i <;> rfl
  obtain ⟨he, rfl, rfl⟩ | ⟨he, hi, rfl⟩ | ⟨c, he, hc, rfl⟩ | ⟨he, hc, rfl⟩ := exec_cases h
  · exact exec_clrerr_locked (s := s.setDin v) he
  · rw [exec_eq_issue (.inl hi), issue_locked (s := t.setDin v) he]
  · rw [exec_eq_issue (s := s.setDin v) (.inr he), issue_raises (s := s.setDin v) he (herr.trans hc)]
    rfl
  · rw [exec_eq_issue (s := s.setDin v) (.inr he), issue_accepts (s := s.setDin v) he (herr.trans hc),
      effectOf_setDin ha hl]

/-- Settles O41: of all that a step can do, the write to DIN and reset alone change it. -/
theorem dinIsTheHostsAlone : Obligations.DinIsTheHostsAlone := by
  refine ⟨fun s t h hne => ?_, fun s v rest hp => ⟨_, step_wr hp, rfl, rfl⟩, fun i s t v ha hl h => exec_setDin ha hl v h⟩
  obtain ⟨hsame, -⟩ | ⟨rest, hp, rfl⟩ | ⟨v, rest, hp, rfl⟩ | ⟨v, rest, -, rfl⟩ | ⟨w, rest, i, -, -, -, rfl⟩ :=
    step_changes h
  · exact absurd (by rw [hsame]) hne
  · exact .inr ⟨rest, hp, rfl⟩
  · exact .inl ⟨v, rest, hp, rfl⟩
  · exact absurd rfl hne
  · exact absurd (effectOf_hostRegs i _).1 hne

/-! ## DOUT (rule R29) -/

/-- Settles O42: of all that a step can do, reset and the three commands that write DOUT alone change it. -/
theorem doutIsTheEnginesAlone : Obligations.DoutIsTheEnginesAlone := by
  refine ⟨fun s t h hne => ?_, fun s t rest hp h => ?_⟩
  · obtain ⟨hsame, -⟩ | ⟨rest, hp, rfl⟩ | ⟨v, rest, -, rfl⟩ | ⟨v, rest, -, rfl⟩ | ⟨w, rest, i, hp, hd, hacc, rfl⟩ :=
      step_changes h
    · exact absurd (by rw [hsame]) hne
    · exact .inl ⟨rest, hp, rfl⟩
    · exact absurd rfl hne
    · exact absurd rfl hne
    · have hready : s.Ready := hacc.ready (by rintro rfl; exact hne rfl) (by rintro rfl; exact hne rfl)
      exact .inr ⟨w, rest, i, hp, hd, hready, effectOf_dout hne⟩
  · obtain rfl : _ = t := by simpa [step_rd hp] using h
    exact ⟨rfl, rfl⟩

/-! ## IRQEN (rule R38) -/

/-- Two enables read as a register value leave bits [63:2] at 0. -/
theorem enables_reservedBits (v : BitVec 2) : v.setWidth 64 &&& 0xFFFFFFFFFFFFFFFC = 0 := by
  revert v
  decide

/-- The two enables a write keeps are the written value under the mask 3. -/
theorem enables_of_write (v : Word) : (v.extractLsb' 0 2).setWidth 64 = v &&& 0x3 := by
  apply BitVec.eq_of_toNat_eq
  have hmask : v.toNat &&& 3 = v.toNat % 4 := Nat.and_two_pow_sub_one_eq_mod v.toNat 2
  simp [hmask]
  omega

/-- Settles O43: of all that a step can do, the write to IRQEN and reset alone change it. -/
theorem irqenHoldsTwoEnables : Obligations.IrqenHoldsTwoEnables := by
  refine ⟨fun s => ⟨?_, ?_, ?_⟩, fun s v rest hp => ⟨_, step_wr hp, ?_⟩, fun s t h hne => ?_⟩
  · exact enables_reservedBits s.irqen
  · simp [readReg, State.rdyIe]
  · simp [readReg, State.errIe]
  · exact enables_of_write v
  · obtain ⟨hsame, -⟩ | ⟨rest, hp, rfl⟩ | ⟨v, rest, -, rfl⟩ | ⟨v, rest, hp, -⟩ | ⟨w, rest, i, -, -, -, rfl⟩ :=
      step_changes h
    · exact absurd (by rw [hsame]) hne
    · exact .inr ⟨rest, hp, rfl⟩
    · exact absurd rfl hne
    · exact .inl ⟨v, rest, hp⟩
    · exact absurd (effectOf_hostRegs i _).2 hne

/-! ## Reset (rule R47) -/

/-- Settles O1: the lanes read 0, and every other field holds its value by definition. -/
theorem resetHoldsTheStatedValues : Obligations.ResetHoldsTheStatedValues :=
  ⟨fun l _ => readLane_zeroLanes l, rfl, rfl, rfl, rfl, rfl, rfl, rfl, rfl, rfl, rfl, rfl, rfl, rfl⟩

/-! ## The session invariant (rules R34, R35 and R46) -/

/-- The clause of the invariant for a phase; `State.inv_of_clause` ties it to `State.Inv`. -/
def State.ClauseOf (s : State) : Phase → Prop
  | .idle => s.lanes = zeroLanes ∧ s.cursor = 0 ∧ s.outcnt = 0 ∧ s.dout = 0 ∧ s.func = .sha3_224 ∧ s.be = false ∧
      s.busy = false
  | .created => s.lanes = zeroLanes ∧ s.cursor = 0 ∧ s.outcnt = 0 ∧ s.dout = 0 ∧ s.func ≠ .raw ∧ s.busy = false
  | .absorbing => s.cursor.toNat < s.rate.toNat ∧ s.outcnt = 0 ∧ s.dout = 0 ∧ s.func ≠ .raw
  | .squeezing => s.cursor.toNat ≤ s.rate.toNat ∧ s.outcntSqueezing = true ∧ s.func ≠ .raw
  | .finished => s.lanes = zeroLanes ∧ s.cursor = 0 ∧ s.outcntFinished = true ∧ s.func ≠ .raw ∧ s.busy = false
  | .raw => s.cursor = 0 ∧ s.outcnt = 0 ∧ s.func = .raw

/-- The invariant is the clause of the phase the state is in. -/
theorem State.inv_of_clause {s : State} {p : Phase} (hp : s.phase = p) (h : s.ClauseOf p) : s.Inv := by
  subst hp
  constructor <;> intro e <;> rwa [e] at h

/-- The invariant reads the session alone, and of BUSY only that it is 0. -/
theorem State.SameRegs.inv {s t : State} (hst : s.SameRegs t) (h : s.Inv) : t.Inv := by
  obtain ⟨ht, hb⟩ := hst
  rw [ht]
  refine ⟨fun e => ?_, fun e => ?_, h.absorbing, h.squeezing, fun e => ?_, h.raw⟩
  · obtain ⟨hl, hc, ho, hd, hf, hbe, hbusy⟩ := h.idle e
    exact ⟨hl, hc, ho, hd, hf, hbe, hb hbusy⟩
  · obtain ⟨hl, hc, ho, hd, hf, hbusy⟩ := h.created e
    exact ⟨hl, hc, ho, hd, hf, hb hbusy⟩
  · obtain ⟨hl, hc, ho, hf, hbusy⟩ := h.finished e
    exact ⟨hl, hc, ho, hf, hb hbusy⟩

/-- The invariant reads neither DIN nor IRQEN. -/
theorem State.Inv.setDin {s : State} (h : s.Inv) (v : Word) : (s.setDin v).Inv :=
  ⟨h.idle, h.created, h.absorbing, h.squeezing, h.finished, h.raw⟩

theorem State.Inv.setIrqen {s : State} (h : s.Inv) (v : BitVec 2) : (s.setIrqen v).Inv :=
  ⟨h.idle, h.created, h.absorbing, h.squeezing, h.finished, h.raw⟩

/-- Settles O39: the reset state meets the clause of IDLE. -/
theorem resetMeetsTheSessionInvariant : Obligations.ResetMeetsTheSessionInvariant :=
  State.inv_of_clause (p := .idle) rfl ⟨rfl, rfl, rfl, rfl, rfl, rfl, rfl⟩

/-! ### The cursor in the byte loops -/

/-- ABSORB permutes the moment the block is full, so the cursor stays in the block (rule R163). -/
theorem absorbBytes_cursor_lt {rate : BitVec 8} (bs : List Byte) {t : Transfer} (h : t.cursor.toNat < rate.toNat) :
    (absorbBytes rate t bs).cursor.toNat < rate.toNat := by
  induction bs generalizing t with
  | nil => exact h
  | cons b bs ih =>
    rw [absorbBytes_cons]
    apply ih
    unfold absorbByte
    split
    · show (0 : BitVec 8).toNat < rate.toNat
      simp; omega
    · next hne =>
      have hnext := toNat_add_one h
      have : (t.cursor + 1).toNat ≠ rate.toNat := fun e => hne (BitVec.eq_of_toNat_eq e)
      show (t.cursor + 1).toNat < rate.toNat
      omega

theorem refill_cursor_lt {rate : BitVec 8} {t : Transfer} (h0 : 0 < rate.toNat) (h : t.cursor.toNat ≤ rate.toNat) :
    (refill rate t).cursor.toNat < rate.toNat := by
  unfold refill
  split
  · exact h0
  · next hne =>
    have : t.cursor.toNat ≠ rate.toNat := fun e => hne (BitVec.eq_of_toNat_eq e)
    omega

/-- SQUEEZE permutes only when a byte is asked for, so the cursor may stand at the end of the block (rule R169). -/
theorem squeezeBytes_cursor_le {rate : BitVec 8} (n : Nat) {t : Transfer} (h0 : 0 < rate.toNat)
    (h : t.cursor.toNat ≤ rate.toNat) : (squeezeBytes rate n t).2.cursor.toNat ≤ rate.toNat := by
  induction n generalizing t with
  | zero => exact h
  | succ n ih =>
    have hlt := refill_cursor_lt h0 h
    apply ih
    show ((refill rate t).cursor + 1).toNat ≤ rate.toNat
    rw [toNat_add_one hlt]
    exact hlt

/-! ### The count of the output, by the kind of function -/

theorem State.outcntSqueezing_of_xof {s : State} (h : s.func.outputBytes = none) :
    s.outcntSqueezing = true ↔ s.outcnt = 0 := by
  simp [State.outcntSqueezing, h]

theorem State.outcntSqueezing_of_fixed {s : State} {d : Nat} (h : s.func.outputBytes = some d) :
    s.outcntSqueezing = true ↔ s.outcnt.toNat < d ∧ s.cursor = s.outcnt := by
  simp [State.outcntSqueezing, h]

theorem State.outcntFinished_of_fixed {s : State} {d : Nat} (h : s.func.outputBytes = some d) :
    s.outcntFinished = true ↔ s.outcnt.toNat ≤ d := by
  simp [State.outcntFinished, h]

/-- The count of an output that goes on may also stand at its end. -/
theorem State.outcntFinished_of_squeezing {s : State} (h : s.outcntSqueezing = true) : s.outcntFinished = true := by
  cases hd : s.func.outputBytes with
  | none => simp [State.outcntFinished, hd, (State.outcntSqueezing_of_xof hd).1 h]
  | some d =>
    obtain ⟨hlt, -⟩ := (State.outcntSqueezing_of_fixed hd).1 h
    exact (State.outcntFinished_of_fixed hd).2 hlt.le

/-! ### The effects of the commands -/

section
variable {s : State}

theorem initEffect_inv (f : Func) (be : Bool) (hb : s.busy = false) : (initEffect f be s).Inv := by
  by_cases hf : f = .raw
  · subst hf
    exact State.inv_of_clause (p := .raw) rfl ⟨rfl, rfl, rfl⟩
  · exact State.inv_of_clause (p := .created) (if_neg hf) ⟨rfl, rfl, rfl, rfl, hf, hb⟩

/-- Before FINALIZE the block has room, no output is counted and DOUT is 0. -/
theorem State.Inv.openBlock (h : s.Inv) (hp : s.phase = .created ∨ s.phase = .absorbing) : s.ClauseOf .absorbing := by
  obtain hp | hp := hp
  · obtain ⟨-, hc, ho, hd, hf, -⟩ := h.created hp
    have hrate := State.rate_of_sponge (s := s) (by simp [hp]) (by simp [hp])
    have hpos := Func.rate_bounds hf
    refine ⟨?_, ho, hd, hf⟩
    rw [hc, hrate]
    show 0 < _
    omega
  · exact h.absorbing hp

theorem absorbEffect_inv (h : s.Inv) (hp : s.phase = .created ∨ s.phase = .absorbing) (n : Nat) :
    (absorbEffect n s).Inv := by
  obtain ⟨hc, ho, hd, hf⟩ := h.openBlock hp
  have hphase : (absorbEffect n s).phase = .absorbing := by simp [absorbEffect]
  have hrate : (absorbEffect n s).rate = s.rate := by
    rw [State.rate_of_sponge (by simp [hphase]) (by simp [hphase]), (absorbEffect_frame n s).1,
      State.rate_of_sponge (s := s) (by rintro e; simp [e] at hp) (by rintro e; simp [e] at hp)]
  refine State.inv_of_clause hphase ⟨?_, ?_, ?_, ?_⟩
  · rw [hrate]
    simpa [absorbEffect] using absorbBytes_cursor_lt (inBytes s.be s.din n) (t := s.transfer) hc
  all_goals simp [absorbEffect, ho, hd, hf]

/-- FINALIZE starts the output at its first byte. -/
theorem finalizeEffect_inv (h : s.Inv) (hp : s.phase = .created ∨ s.phase = .absorbing) : (finalizeEffect s).Inv := by
  obtain ⟨-, ho, -, hf⟩ := h.openBlock hp
  refine State.inv_of_clause (p := .squeezing) rfl ⟨Nat.zero_le _, ?_, hf⟩
  cases hd : s.func.outputBytes with
  | none => exact (State.outcntSqueezing_of_xof (s := finalizeEffect s) hd).2 ho
  | some d =>
    have hpos := Func.outputBytes_lt_rate hd
    refine (State.outcntSqueezing_of_fixed (s := finalizeEffect s) hd).2 ⟨?_, ho.symm⟩
    show s.outcnt.toNat < d
    rw [ho]
    show 0 < d
    omega

theorem enterFinished_inv (hf : s.func ≠ .raw) (hb : s.busy = false) (ho : s.outcntFinished = true) :
    (enterFinished s).Inv := State.inv_of_clause (p := .finished) rfl ⟨rfl, rfl, ho, hf, hb⟩

theorem squeezeEffect_of_xof (hd : s.func.outputBytes = none) (n : Nat) :
    squeezeEffect n s = ((s.setTransfer (squeezeBytes s.rate n s.transfer).2).setDout
      (packOut s.be (squeezeBytes s.rate n s.transfer).1)).markBusy (squeezeBytes s.rate n s.transfer).2.perms := by
  rw [squeezeEffect]
  exact congrArg _ (countOutput_of_xof hd)

theorem squeezeEffect_inv_of_xof (h : s.Inv) (hp : s.phase = .squeezing) (hd : s.func.outputBytes = none) (n : Nat) :
    (squeezeEffect n s).Inv := by
  obtain ⟨hc, ho, hf⟩ := h.squeezing hp
  have hrate : s.rate = s.func.rate := State.rate_of_sponge (by simp [hp]) (by simp [hp])
  obtain ⟨hpos, -⟩ := Func.rate_bounds hf
  have hphase : (squeezeEffect n s).phase = .squeezing := by simp [squeezeEffect_of_xof hd, hp]
  have hfunc : (squeezeEffect n s).func = s.func := (squeezeEffect_frame n s).1
  refine State.inv_of_clause hphase ⟨?_, ?_, hfunc ▸ hf⟩
  · have hcursor : (squeezeEffect n s).cursor = (squeezeBytes s.rate n s.transfer).2.cursor := by
      simp [squeezeEffect_of_xof hd]
    rw [hcursor, State.rate_of_sponge (s := squeezeEffect n s) (by simp [hphase]) (by simp [hphase]), hfunc, ← hrate]
    exact squeezeBytes_cursor_le n (by rw [hrate]; omega) hc
  · rw [State.outcntSqueezing_of_xof (hfunc ▸ hd)]
    simpa [squeezeEffect_of_xof hd] using (State.outcntSqueezing_of_xof hd).1 ho

/-- A SQUEEZE within the block moves the cursor on and runs no permutation (rule R169). -/
theorem squeezeEffect_within {n : Nat} (h : s.cursor.toNat + n ≤ s.rate.toNat) :
    squeezeEffect n s = countOutput n ((s.setCursor (s.cursor + BitVec.ofNat 8 n)).setDout
      (packOut s.be (squeezeBytes s.rate n s.transfer).1)) := by
  have hloop : (squeezeBytes s.rate n s.transfer).2 = ⟨s.lanes, s.cursor + BitVec.ofNat 8 n, 0⟩ := by
    rw [squeezeBytes_within n h]
    rfl
  rw [squeezeEffect, hloop]
  rfl

/-- The count of a fixed output, up to D, with the cursor at the new count: the output goes on, or D ends it. -/
theorem countOutput_inv_of_fixed (hp : s.phase = .squeezing) (hb : s.busy = false) {d n : Nat}
    (hd : s.func.outputBytes = some d) (hle : (s.outcnt + BitVec.ofNat 8 n).toNat ≤ d)
    (hc : s.cursor = s.outcnt + BitVec.ofNat 8 n) : (countOutput n s).Inv := by
  rw [countOutput_of_fixed hd]
  generalize s.outcnt + BitVec.ofNat 8 n = count at *
  obtain ⟨-, -, hdrate, hf⟩ := Func.outputBytes_lt_rate hd
  split
  · exact enterFinished_inv hf hb ((State.outcntFinished_of_fixed (s := s.setOutcnt count) hd).2 hle)
  · next hmore =>
    have hrate : (s.setOutcnt count).rate = s.func.rate := State.rate_of_sponge (by simp [hp]) (by simp [hp])
    have hcursor : s.cursor.toNat ≤ s.func.rate.toNat := by rw [hc]; omega
    have hcount : count.toNat < d := by omega
    exact State.inv_of_clause (p := .squeezing) hp
      ⟨hrate ▸ hcursor, (State.outcntSqueezing_of_fixed (s := s.setOutcnt count) hd).2 ⟨hcount, hc⟩, hf⟩

/-- A fixed output is shorter than a block, so SQUEEZE never permutes and the cursor stays equal to the count (rules R169
and R170). -/
theorem squeezeEffect_inv_of_fixed (h : s.Inv) (hp : s.phase = .squeezing) (hb : s.busy = false) {d n : Nat}
    (hd : s.func.outputBytes = some d) (hn : s.overrun n = false) : (squeezeEffect n s).Inv := by
  obtain ⟨-, ho, -⟩ := h.squeezing hp
  obtain ⟨hlt, hc⟩ := (State.outcntSqueezing_of_fixed hd).1 ho
  obtain ⟨-, hd64, hdrate, -⟩ := Func.outputBytes_lt_rate hd
  have hrate : s.rate = s.func.rate := State.rate_of_sponge (by simp [hp]) (by simp [hp])
  have hle : s.outcnt.toNat + n ≤ d := by simpa [State.overrun, hd] using hn
  have hcount : (s.outcnt + BitVec.ofNat 8 n).toNat ≤ d := by
    simp only [BitVec.toNat_add, BitVec.toNat_ofNat]
    omega
  rw [squeezeEffect_within (by rw [hrate, hc]; omega)]
  exact countOutput_inv_of_fixed (s := (s.setCursor (s.cursor + BitVec.ofNat 8 n)).setDout _) hp hb hd hcount
    (congrArg (· + BitVec.ofNat 8 n) hc)

end

/-- A command that passed its checks starts from the clause of a phase that allows it, and its effect ends
in the clause of the phase it enters. -/
theorem effectOf_inv {i : Instr} {s : State} (h : s.Inv) (hi : s.Accepts i) : (effectOf i s).Inv := by
  have hallowed := hi.allowed
  cases i with
  | nop => exact h
  | clrerr => exact State.SameRegs.inv (s := s) ⟨rfl, id⟩ h
  | init func be =>
    have hb : s.busy = false := (hi.ready (by simp) (by simp)).2
    simp only [effectOf]
    cases Func.ofCode? func with
    | some f => exact initEffect_inv f be hb
    | none => exact h
  | absorb n => exact absorbEffect_inv h (by simpa [allowedIn, Instr.opcode] using hallowed) n.toNat
  | finalize => exact finalizeEffect_inv h (by simpa [allowedIn, Instr.opcode] using hallowed)
  | squeeze n =>
    have hp : s.phase = .squeezing := by simpa [allowedIn, Instr.opcode] using hallowed
    have hb : s.busy = false := (hi.ready (by simp) (by simp)).2
    cases hd : s.func.outputBytes with
    | none => exact squeezeEffect_inv_of_xof h hp hd n.toNat
    | some d => exact squeezeEffect_inv_of_fixed h hp hb hd hi.fits
  | finish =>
    have hp : s.phase = .squeezing := by simpa [allowedIn, Instr.opcode] using hallowed
    have hb : s.busy = false := (hi.ready (by simp) (by simp)).2
    obtain ⟨-, ho, hf⟩ := h.squeezing hp
    exact enterFinished_inv hf hb (State.outcntFinished_of_squeezing ho)
  | permute | laneWr idx | laneRd idx =>
    have hp : s.phase = .raw := by simpa [allowedIn, Instr.opcode] using hallowed
    exact State.inv_of_clause (p := .raw) hp (h.raw hp)

/-- Settles O38: each thing a step can do to the registers keeps the invariant. -/
theorem stepKeepsTheSessionInvariant : Obligations.StepKeepsTheSessionInvariant := by
  intro s t h hstep
  have hcmd (rest : List Event) : (s.atCommand rest).Inv := (s.sameRegs_atCommand rest).inv h
  obtain hsame | ⟨rest, -, rfl⟩ | ⟨v, rest, -, rfl⟩ | ⟨v, rest, -, rfl⟩ | ⟨w, rest, i, -, -, hi, rfl⟩ :=
    step_changes hstep
  · exact hsame.inv h
  · exact State.SameRegs.inv (s := State.reset) ⟨rfl, id⟩ resetMeetsTheSessionInvariant
  · exact (hcmd rest).setDin v
  · exact (hcmd rest).setIrqen _
  · exact effectOf_inv (hcmd rest) hi

end Sys2Proof.Machine
end

section
/-! Proofs of the family 20_memory: the byte order of DIN and DOUT, the accesses of the port, the window and the state
bytes; that serving inputs is stepping; and that a session's output is a function of the message alone. -/

namespace Sys2Proof.Machine

/-! ## Stream bytes of DIN and DOUT (rules R67 to R69) -/

theorem inByte_getLsbD {be : Bool} {v : Word} {k j : Nat} (hj : j < 8) :
    (inByte be v k).getLsbD j = v.getLsbD (byteShift be k + j) := by
  simp [inByte, hj]

/-- A packed value reads back the list's bytes at their places, and 0 past its end. -/
theorem inByte_packOut (be : Bool) {bs : List Byte} {k : Nat} (hbs : bs.length ≤ 8) (hk : k < 8) :
    inByte be (packOut be bs) k = bs.getD k 0 := by
  have hread := inByte_putOutBytes be bs 0 0 k (by omega) hk
  by_cases h : k < bs.length
  · simpa [packOut, h] using hread
  · simpa [packOut, h, List.getD_eq_default _ _ (Nat.le_of_not_lt h)] using hread

theorem inBytes_packOut (be : Bool) {bs : List Byte} (hbs : bs.length ≤ 8) :
    inBytes be (packOut be bs) bs.length = bs := by
  refine List.ext_getElem (by simp) fun k _ hk => ?_
  simpa [inBytes, hk] using inByte_packOut be hbs (k := k) (by omega)

/-- Settles O51: a byte's bits stand from its shift on, and a packed list is read back byte by byte. -/
theorem outputBytesReadBackInOrder : Obligations.OutputBytesReadBackInOrder := by
  refine ⟨fun v k _ => ⟨fun j hj => inByte_getLsbD hj, fun j hj => inByte_getLsbD hj⟩, fun w k b _ => ⟨rfl, rfl⟩,
    fun be bs hbs => ⟨fun k hk => inByte_packOut be hbs hk, inBytes_packOut be hbs⟩⟩

/-! ## State bytes (rule R66) -/

/-- Every rate is a number of whole lanes; RAW's is 0. -/
theorem Func.rate_mod_eight (f : Func) : f.rate.toNat % 8 = 0 := by cases f <;> rfl

/-- Settles O58: a state byte is cut out of its lane, and an XOR into it writes that lane. -/
theorem stateBytesAreTheirBits : Obligations.StateBytesAreTheirBits := by
  refine ⟨fun A i j _ hj => stateByte_getLsbD A i j hj, fun A i l b _ hl => ?_, fun f i => ?_⟩
  · rw [xorStateByte, readLane_writeLane]
    by_cases h : l = i / 8
    · subst h
      simp [hl]
    · simp [h, Ne.symm h]
  · have := f.rate_mod_eight
    omega

/-! ## The accesses of the port (rules R61 and R62) -/

theorem Reg.atOffset?_eq_some_iff {off : BitVec 8} {r : Reg} : Reg.atOffset? off = some r ↔ off = r.offset := by
  revert off
  cases r <;> decide

/-- An access reaches a register exactly when it is of 8 bytes at that register's offset. -/
theorem accessedReg?_eq_some_iff {off : BitVec 8} {size : Nat} {r : Reg} :
    accessedReg? off size = some r ↔ size = 8 ∧ off = r.offset := by
  refine ⟨fun h => ?_, ?_⟩
  · obtain ⟨hsize, hreg⟩ := accessedReg?_eq_some h
    exact ⟨hsize, Reg.atOffset?_eq_some_iff.1 hreg⟩
  · rintro ⟨rfl, rfl⟩
    cases r <;> rfl

theorem accessedReg?_eq_none {off : BitVec 8} {size : Nat}
    (h : size ≠ 8 ∨ off.toNat % 8 ≠ 0 ∨ 0x28 ≤ off.toNat) : accessedReg? off size = none := by
  refine Option.eq_none_iff_forall_ne_some.2 fun r hr => ?_
  obtain ⟨rfl, rfl⟩ := accessedReg?_eq_some_iff.1 hr
  revert h
  cases r <;> decide

/-- A write that reaches no register but STATUS or DOUT is refused (rule R62). -/
theorem busWrite_refused {off : BitVec 8} {size : Nat}
    (h : ∀ r, accessedReg? off size = some r → r = .status ∨ r = .dout) (v : Word) (s : State) :
    busWrite off size v s = .next (s.respond .writeSlverr) := by
  unfold busWrite
  cases hr : accessedReg? off size with
  | none => rfl
  | some r => obtain rfl | rfl := h r hr <;> rfl

theorem step_input {s : State} {e : Event} {rest : List Event} (h : s.NextInput e rest) :
    step s = deliver e (s.setPending rest) := by
  have hp : s.pending = e :: rest := h
  rw [step, hp]

/-- Settles O26: each access is the `wr` or `rd` of its register. -/
theorem acceptedBusAccesses : Obligations.AcceptedBusAccesses := by
  intro s rest v
  refine ⟨step_wr (r := .cmd), step_wr (r := .din), fun hp => ⟨_, step_wr (r := .irqen) hp, rfl, enables_of_write v⟩,
    step_rd (r := .cmd), step_rd (r := .status), step_rd (r := .din), step_rd (r := .dout), step_rd (r := .irqen)⟩

/-- Settles O27: a refused read reaches no register, a refused write none that takes it. -/
theorem refusedBusAccesses : Obligations.RefusedBusAccesses := by
  refine fun s rest off size v => ⟨fun h hp => ?_, fun h hp => ?_⟩
  · rw [step_input hp, deliver, busRead, accessedReg?_eq_none h]
    rfl
  · have hrefused (r : Reg) (hr : accessedReg? off size = some r) : r = .status ∨ r = .dout := by
      obtain ⟨rfl, rfl⟩ := accessedReg?_eq_some_iff.1 hr
      revert h
      cases r <;> decide
    exact (step_input hp).trans (busWrite_refused hrefused v _)

/-! ## The window (rules R60 and R73) -/

theorem windowOffset?_of_outside {addr : Nat} (h : addr < Config.base ∨ Config.base + 0x100 ≤ addr) :
    windowOffset? addr = none := by
  refine if_neg ?_
  rw [Config.windowSize]
  omega

theorem windowOffset?_base_add (off : BitVec 8) : windowOffset? (Config.base + off.toNat) = some off := by
  have hwindow : Config.base ≤ Config.base + off.toNat ∧ Config.base + off.toNat < Config.base + Config.windowSize := by
    rw [Config.windowSize]
    omega
  rw [windowOffset?, if_pos hwindow, Nat.add_sub_cancel_left, BitVec.ofNat_toNat, BitVec.setWidth_eq]

/-- Settles O28: an address outside the window has no offset, so it gives no access. -/
theorem windowIsAtBase : Obligations.WindowIsAtBase := by
  refine ⟨Nat.mul_mod_right _ _, windowOffset?_base_add, fun addr h size v => ?_⟩
  rw [hostRead, hostWrite, windowOffset?_of_outside h]
  exact ⟨rfl, rfl⟩

/-! ## Serving inputs is stepping (rule R74, log entry 1)

No input reads the inputs that come after it, so it does the same whatever is pending. -/

section
variable (p : List Event)

theorem markBusy_setPending (perms : Nat) (s : State) :
    (s.setPending p).markBusy perms = (s.markBusy perms).setPending p := by
  unfold State.markBusy
  split <;> rfl

theorem countOutput_setPending (n : Nat) (s : State) :
    countOutput n (s.setPending p) = (countOutput n s).setPending p := by
  cases ho : s.func.outputBytes with
  | none => rw [countOutput_of_xof ho, countOutput_of_xof (s := s.setPending p) ho]
  | some d =>
    rw [countOutput_of_fixed ho, countOutput_of_fixed (s := s.setPending p) ho, apply_ite (State.setPending p)]
    rfl

theorem absorbEffect_setPending (n : Nat) (s : State) :
    absorbEffect n (s.setPending p) = (absorbEffect n s).setPending p := by
  rw [absorbEffect, absorbEffect, ← markBusy_setPending]
  rfl

theorem squeezeEffect_setPending (n : Nat) (s : State) :
    squeezeEffect n (s.setPending p) = (squeezeEffect n s).setPending p := by
  rw [squeezeEffect, squeezeEffect, ← markBusy_setPending, ← countOutput_setPending]
  rfl

theorem effectOf_setPending (i : Instr) (s : State) : effectOf i (s.setPending p) = (effectOf i s).setPending p := by
  cases i with
  | init func be => simp only [effectOf]; cases Func.ofCode? func <;> rfl
  | absorb n => exact absorbEffect_setPending p n.toNat s
  | squeeze n => exact squeezeEffect_setPending p n.toNat s
  | nop | finalize | finish | permute | laneWr idx | laneRd idx | clrerr => rfl

theorem overrunOf_setPending (i : Instr) (s : State) : overrunOf i (s.setPending p) = overrunOf i s := by
  cases i <;> rfl

theorem issue_setPending (op : Option Opcode) (v : Verdict) (o : Bool) {effect : State → State} {s : State}
    (he : effect (s.setPending p) = (effect s).setPending p) :
    issue op v o effect (s.setPending p) = (issue op v o effect s).setPending p := by
  obtain ⟨hl, h⟩ | ⟨c, hl, hc, h⟩ | ⟨hl, hc, h⟩ := issue_cases op v o effect s
  · rw [h, issue_locked (s := s.setPending p) hl]
  · rw [h, issue_raises (s := s.setPending p) hl hc]
    rfl
  · rw [h, issue_accepts (s := s.setPending p) hl hc, he]

/-- The outcome is a next state, the same one whatever inputs are pending. -/
def RunsWithAnyPending (f : State → Host.Outcome State Fault Refusal) : Prop :=
  ∀ s, ∃ t, f s = .next t ∧ ∀ p, f (s.setPending p) = .next (t.setPending p)

theorem exec_runs (i : Instr) : RunsWithAnyPending (exec i) := by
  intro s
  by_cases hi : i ≠ .clrerr ∨ s.err = .noError
  · refine ⟨_, exec_eq_issue hi, fun p => ?_⟩
    rw [exec_eq_issue (s := s.setPending p) hi, overrunOf_setPending,
      issue_setPending p _ _ _ (effectOf_setPending p i s)]
  · obtain ⟨rfl, hl⟩ : i = .clrerr ∧ s.err ≠ .noError := by tauto
    exact ⟨_, exec_clrerr_locked hl, fun p => exec_clrerr_locked (s := s.setPending p) hl⟩

theorem issueCommand_runs (w : Word) : RunsWithAnyPending (issueCommand w) := by
  intro s
  unfold issueCommand
  cases decode w with
  | command i => exact exec_runs i s
  | illegalOpcode | illegalOperand op | badConfig =>
    exact ⟨_, rfl, fun p => congrArg _ (issue_setPending p _ _ _ (effect := id) rfl)⟩

theorem busWrite_runs (off : BitVec 8) (size : Nat) (v : Word) : RunsWithAnyPending (busWrite off size v) := by
  intro s
  unfold busWrite
  cases accessedReg? off size with
  | none => exact ⟨_, rfl, fun p => rfl⟩
  | some r =>
    cases r with
    | cmd => exact issueCommand_runs v (s.respond .writeOkay)
    | status | din | dout | irqen => exact ⟨_, rfl, fun p => rfl⟩

theorem busRead_setPending (off : BitVec 8) (size : Nat) (s : State) :
    busRead off size (s.setPending p) = (busRead off size s).setPending p := by
  unfold busRead
  cases accessedReg? off size with
  | none => rfl
  | some r => cases r <;> rfl

theorem deliver_runs (e : Event) : RunsWithAnyPending (deliver e) := by
  intro s
  cases e with
  | read off size => exact ⟨_, rfl, fun p => congrArg _ (busRead_setPending p off size s)⟩
  | write off size v => exact busWrite_runs off size v s
  | engineTurn =>
    refine ⟨_, rfl, fun p => ?_⟩
    simp only [deliver, engineTurn_eq]
    rfl
  | reset => exact ⟨_, rfl, fun p => rfl⟩

end

/-! ### `serve`, input by input -/

@[simp] theorem serve_nil (s : State) : serve [] s = some (s, []) := rfl

theorem serve_cons {e : Event} {es : List Event} {s t : State} (h : deliver e s = .next t) :
    serve (e :: es) s = (serve es t).map fun r => (r.1, answers e t ++ r.2) := by
  rw [serve, h]

/-- Settles O57: an input delivered alone and one taken off the pending inputs do the same, so the two runs go on from
the same state. -/
theorem servingIsStepping : Obligations.ServingIsStepping := by
  intro es rest s
  induction es generalizing s with
  | nil => exact ⟨s, [], rfl, rfl⟩
  | cons e es ih =>
    obtain ⟨t, hdeliver, hpending⟩ := deliver_runs e s
    obtain ⟨u, rs, hserve, hrun⟩ := ih t
    have hnext : (s.setPending (e :: es ++ rest)).NextInput e (es ++ rest) := rfl
    have hstep : step (s.setPending (e :: es ++ rest)) = .next (t.setPending (es ++ rest)) :=
      (step_input hnext).trans (hpending (es ++ rest))
    refine ⟨u, answers e t ++ rs, by rw [serve_cons hdeliver, hserve]; rfl, ?_⟩
    rw [List.length_cons, core_run_succ hstep, hrun]

/-! ## Commands by their words (rules R27, R90 and R96) -/

theorem Opcode.ofCode?_op (i : Instr) : Opcode.ofCode? i.op = some i.opcode := by cases i <;> rfl

/-- The one-bit field w[12] and the four-bit field w[11:8], read back out of ARG (rule R93). -/
theorem argFields_append (b : Bool) (n : BitVec 4) : BitVec.extractLsb' (n := 5) 0 4 (bit b ++ n) = n ∧
    BitVec.getLsbD (w := 5) (bit b ++ n) 4 = b := by
  refine ⟨BitVec.extractLsb'_append_eq_right, (BitVec.getLsbD_append (x := bit b) (y := n) (i := 4)).trans ?_⟩
  simp

/-- The operand fields of a command, read back under its opcode. -/
theorem decodeOperand_arg (i : Instr) : decodeOperand i.opcode i.arg = i.checked := by
  cases i with
  | nop | finalize | finish | permute | clrerr | laneWr idx | laneRd idx => rfl
  | init func be =>
    obtain ⟨hfunc, hbe⟩ := argFields_append be func
    simp only [decodeOperand, Instr.opcode, Instr.arg, hfunc, hbe]
  | absorb n | squeeze n =>
    obtain ⟨hcount, htop⟩ : BitVec.extractLsb' (n := 5) 0 4 (0#1 ++ n) = n ∧ BitVec.getLsbD (w := 5) (0#1 ++ n) 4 = false :=
      argFields_append false n
    simp only [decodeOperand, Instr.opcode, Instr.arg, withCount, hcount, htop, Bool.false_eq_true, if_false]

/-- A command's word decodes to the verdict on its operands. -/
theorem decode_encode_checked (i : Instr) : decode (encode i) = i.checked := by
  simp [decode, encode, Opcode.ofCode?_op, decodeOperand_arg]

theorem decode_encode {i : Instr} (h : i.WellFormed) : decode (encode i) = .command i := by
  rw [decode_encode_checked, Instr.checked, (verdict_ok_iff i).2 h]

theorem State.Accepts.respond {s : State} {i : Instr} (h : s.Accepts i) (r : Response) : (s.respond r).Accepts i :=
  ⟨h.err, h.busy, h.wellFormed, h.allowed, by cases i <;> exact h.fits⟩

theorem State.Ready.accepts {s : State} {i : Instr} (h : s.Ready) (hi : i.WellFormed)
    (hp : allowedIn i.opcode s.phase = true) (ho : overrunOf i s = false) : s.Accepts i :=
  ⟨h.1, fun hb => absurd hb (by simp [h.2]), hi, hp, ho⟩

theorem exec_of_accepts {i : Instr} {s : State} (h : s.Accepts i) : exec i s = .next (effectOf i s) := by
  have hbusy (hb : s.busy = true) : acceptedWhileBusy i.opcode = true := by
    obtain rfl | rfl := h.busy hb <;> rfl
  rw [exec_eq_issue (.inr h.err), issue_accepts h.err]
  exact issueError_eq_none.2 ⟨_, rfl, hbusy, (verdict_ok_iff i).2 h.wellFormed, h.allowed, h.fits⟩

/-! ## Serving the host's statements (rule R101) -/

theorem countOutput_port (n : Nat) (s : State) : (countOutput n s).err = s.err ∧ (countOutput n s).dout = s.dout ∧
    (countOutput n s).response = s.response := by
  obtain ⟨-, h⟩ | ⟨d, -, ⟨-, h⟩ | ⟨-, h⟩⟩ := countOutput_cases n s <;> rw [h] <;> exact ⟨rfl, rfl, rfl⟩

/-- No command changes the answer to the write that carried it. -/
theorem effectOf_response (i : Instr) (s : State) : (effectOf i s).response = s.response := by
  cases i with
  | init func be => simp only [effectOf]; cases Func.ofCode? func <;> rfl
  | absorb n => simp [effectOf, absorbEffect]
  | squeeze n => simp [effectOf, squeezeEffect, countOutput_port]
  | nop | finalize | finish | permute | laneWr idx | laneRd idx | clrerr => rfl

@[simp] theorem readData_writeOkay : readData .writeOkay = none := rfl
@[simp] theorem readData_readOkay (v : Word) : readData (.readOkay v) = some v := rfl

theorem serve_append {es es' : List Event} {s t u : State} {rs rs' : List Response} (h : serve es s = some (t, rs))
    (h' : serve es' t = some (u, rs')) : serve (es ++ es') s = some (u, rs ++ rs') := by
  induction es generalizing s rs with
  | nil => cases h; exact h'
  | cons e es ih =>
    obtain ⟨s', hdeliver, -⟩ := deliver_runs e s
    rw [serve_cons hdeliver, Option.map_eq_some_iff] at h
    obtain ⟨⟨_, _⟩, hserve, heq⟩ := h
    cases heq
    rw [List.cons_append, serve_cons hdeliver, ih hserve]
    simp

theorem serve_cmd {i : Instr} {s : State} (h : s.Accepts i) :
    serve [cmd i] s = some (effectOf i (s.respond .writeOkay), [.writeOkay]) := by
  have hdeliver : deliver (cmd i) s = .next (effectOf i (s.respond .writeOkay)) := by
    calc deliver (cmd i) s = issueCommand (encode i) (s.respond .writeOkay) := rfl
      _ = exec i (s.respond .writeOkay) := by rw [issueCommand, decode_encode h.wellFormed]
      _ = .next (effectOf i (s.respond .writeOkay)) := exec_of_accepts (h.respond _)
  rw [serve_cons hdeliver]
  simp [answers, cmd, wr, effectOf_response]

theorem serve_wait (s : State) : serve wait s = some (s.setBusy false, []) := by
  have hdeliver : deliver .engineTurn s = .next (s.setBusy false) := congrArg _ (engineTurn_eq s)
  rw [wait, serve_cons hdeliver]
  rfl

/-- A command and its completion. -/
theorem serve_cmd_wait {i : Instr} {s : State} (h : s.Accepts i) :
    serve ([cmd i] ++ wait) s = some ((effectOf i (s.respond .writeOkay)).setBusy false, [.writeOkay]) :=
  serve_append (serve_cmd h) (serve_wait _)

theorem serve_wr_din (v : Word) (s : State) :
    serve [wr .din v] s = some ((s.respond .writeOkay).setDin v, [.writeOkay]) := rfl

theorem serve_rd_dout {s : State} (h : s.busy = false) :
    serve [rd .dout] s = some (s.respond (.readOkay s.dout), [.readOkay s.dout]) := by
  have hread : readReg .dout s = s.dout := by simp [readReg, h]
  rw [← hread]
  rfl

/-! ## The byte loops from one command to the next (rules R163 and R169) -/

/-- The loop's place as the next command finds it: the same lanes and cursor, no permutation yet. -/
def Transfer.restart (t : Transfer) : Transfer := ⟨t.lanes, t.cursor, 0⟩

theorem absorbBytes_perms (rate : BitVec 8) (bs : List Byte) (A : Lanes) (c : BitVec 8) (p q : Nat) :
    (absorbBytes rate ⟨A, c, p⟩ bs).restart = (absorbBytes rate ⟨A, c, q⟩ bs).restart := by
  induction bs generalizing A c p q with
  | nil => rfl
  | cons b bs ih =>
    simp only [absorbBytes_cons, absorbByte]
    split <;> exact ih ..

/-- Bytes absorbed by two commands are absorbed by one loop. -/
theorem absorbBytes_append_restart (rate : BitVec 8) (t : Transfer) (as bs : List Byte) :
    (absorbBytes rate (absorbBytes rate t as).restart bs).restart = (absorbBytes rate t (as ++ bs)).restart := by
  rw [absorbBytes_append]
  exact absorbBytes_perms ..

theorem squeezeBytes_perms (rate : BitVec 8) (n : Nat) (A : Lanes) (c : BitVec 8) (p q : Nat) :
    (squeezeBytes rate n ⟨A, c, p⟩).1 = (squeezeBytes rate n ⟨A, c, q⟩).1 := by
  induction n generalizing A c p q with
  | zero => rfl
  | succ n ih =>
    simp only [squeezeBytes, refill]
    split <;> exact congrArg _ (ih ..)

/-- Bytes squeezed by two commands are squeezed by one loop. -/
theorem squeezeBytes_add_restart (rate : BitVec 8) (m n : Nat) (t : Transfer) :
    (squeezeBytes rate (m + n) t).1 =
      (squeezeBytes rate m t).1 ++ (squeezeBytes rate n (squeezeBytes rate m t).2.restart).1 := by
  induction m generalizing t with
  | zero =>
    rw [Nat.zero_add]
    exact squeezeBytes_perms ..
  | succ m ih =>
    rw [Nat.add_right_comm]
    exact congrArg _ (ih _)

/-! ## Absorbing a message (rules R163 and R165) -/

/-- The phases of an open block: ABSORB and FINALIZE are accepted (rule R236). -/
def State.Open (s : State) : Prop := s.phase = .created ∨ s.phase = .absorbing

theorem State.Open.rate {s : State} (h : s.Open) : s.rate = s.func.rate := by
  obtain h | h := h <;> exact State.rate_of_sponge (by simp [h]) (by simp [h])

theorem State.Open.allows {s : State} (h : s.Open) :
    allowedIn .absorb s.phase = true ∧ allowedIn .finalize s.phase = true := by
  obtain h | h := h <;> rw [h] <;> exact ⟨rfl, rfl⟩

/-- From the open block of `s` the bytes `m` were absorbed, and the last permutation is complete: this is `t`. -/
structure State.Absorbed (s : State) (m : List Byte) (t : State) : Prop where
  ready : t.Ready
  isOpen : t.Open
  func : t.func = s.func
  be : t.be = s.be
  outcnt : t.outcnt = s.outcnt
  transfer : t.transfer = (absorbBytes s.func.rate s.transfer m).restart

theorem State.absorbed_nil {s : State} (hs : s.Ready) (ho : s.Open) : s.Absorbed [] s :=
  ⟨hs, ho, rfl, rfl, rfl, rfl⟩

theorem State.Absorbed.trans {s t u : State} {m m' : List Byte} (h : s.Absorbed m t) (h' : t.Absorbed m' u) :
    s.Absorbed (m ++ m') u := by
  refine ⟨h'.ready, h'.isOpen, h'.func.trans h.func, h'.be.trans h.be, h'.outcnt.trans h.outcnt, ?_⟩
  rw [h'.transfer, h.transfer, h.func, absorbBytes_append_restart]

theorem absorbEffect_transfer {s : State} (ho : s.Open) (n : Nat) :
    (absorbEffect n s).transfer = (absorbBytes s.func.rate s.transfer (inBytes s.be s.din n)).restart := by
  simp [absorbEffect, State.transfer, Transfer.restart, ho.rate]

theorem absorbEffect_absorbed {s : State} (hs : s.Ready) (ho : s.Open) (n : Nat) :
    s.Absorbed (inBytes s.be s.din n) ((absorbEffect n s).setBusy false) where
  ready := ⟨by simp [absorbEffect, hs.1], rfl⟩
  isOpen := .inr (by simp [absorbEffect])
  func := (absorbEffect_frame n s).1
  be := (absorbEffect_frame n s).2.1
  outcnt := by simp [absorbEffect]
  transfer := absorbEffect_transfer ho n

theorem serve_absorbStmt {s : State} {n : BitVec 4} (v : Word) (hs : s.Ready) (ho : s.Open) (hn : n.toNat ≤ 8) :
    ∃ t, serve (absorbStmt n v) s = some (t, [.writeOkay, .writeOkay]) ∧ s.Absorbed (inBytes s.be v n.toNat) t := by
  have hacc : ((s.respond .writeOkay).setDin v).Accepts (.absorb n) :=
    State.Ready.accepts hs (decide_eq_true hn) ho.allows.1 rfl
  obtain ⟨hready, hopen, hfunc, hbe, hcnt, htransfer⟩ :=
    absorbEffect_absorbed (s := ((s.respond .writeOkay).setDin v).respond .writeOkay) hs ho n.toNat
  exact ⟨_, serve_append (serve_wr_din v s) (serve_cmd_wait hacc), hready, hopen, hfunc, hbe, hcnt, htransfer⟩

/-- The pieces of a session absorb the message they carry; their answers hold no data. -/
theorem serve_pieces {pieces : List (BitVec 4 × Word)} {s : State} (hs : s.Ready) (ho : s.Open)
    (hlegal : LegalCounts (pieces.map Prod.fst)) :
    ∃ t rs, serve (pieces.flatMap fun p => absorbStmt p.1 p.2) s = some (t, rs) ∧ rs.filterMap readData = [] ∧
      s.Absorbed (message s.be pieces) t := by
  induction pieces generalizing s with
  | nil => exact ⟨s, [], rfl, rfl, State.absorbed_nil hs ho⟩
  | cons p pieces ih =>
    obtain ⟨hn, hrest⟩ := List.forall_mem_cons.1 hlegal
    obtain ⟨t, hserve, ht⟩ := serve_absorbStmt p.2 hs ho hn
    obtain ⟨u, rs, hserve', hdata, hu⟩ := ih ht.ready ht.isOpen hrest
    refine ⟨u, _, serve_append hserve hserve', by simpa using hdata, ?_⟩
    rw [ht.be] at hu
    exact ht.trans hu

/-! ## From INIT to the first byte of the output (rules R161, R166 and R167) -/

theorem serve_init {s : State} {f : Func} {be : Bool} (hs : s.Ready) :
    serve [cmd (.init f.code be)] s = some (initEffect f be (s.respond .writeOkay), [.writeOkay]) := by
  have hacc : s.Accepts (.init f.code be) := hs.accepts (by cases f <;> rfl) rfl rfl
  rw [serve_cmd hacc, effectOf, Func.ofCode?_code]

/-- The block that FINALIZE permutes, from where absorbing stopped: SUFFIX at the cursor, 0x80 at the block's end. -/
def paddedBlock (f : Func) (t : Transfer) : Lanes :=
  xorStateByte (xorStateByte t.lanes t.cursor.toNat f.suffix) (f.rate.toNat - 1) 0x80

theorem State.Open.padLanes {s : State} (h : s.Open) : padLanes s = paddedBlock s.func s.transfer := by
  rw [Machine.padLanes, h.rate]
  rfl

theorem serve_finalize {s : State} (hs : s.Ready) (ho : s.Open) :
    serve ([cmd .finalize] ++ wait) s = some ((finalizeEffect (s.respond .writeOkay)).setBusy false, [.writeOkay]) :=
  serve_cmd_wait (hs.accepts rfl ho.allows.2 rfl)

/-- Where the output of a session starts: the message absorbed from the zero state, padded and permuted. -/
def outputStart (f : Func) (m : List Byte) : Transfer :=
  ⟨keccakP (paddedBlock f (absorbBytes f.rate ⟨zeroLanes, 0, 0⟩ m)), 0, 0⟩

/-- The first `len` bytes of a session's output, as a function of the message alone: BE and the split are not in it. -/
def sessionOutput (f : Func) (m : List Byte) (len : Nat) : List Byte := (squeezeBytes f.rate len (outputStart f m)).1

/-- The part of a session before its first SQUEEZE. -/
theorem serve_beforeOutput {s : State} {f : Func} {be : Bool} {pieces : List (BitVec 4 × Word)} (hs : s.Ready)
    (hf : f ≠ .raw) (hlegal : LegalCounts (pieces.map Prod.fst)) :
    ∃ t rs, serve ([cmd (.init f.code be)] ++ pieces.flatMap (fun p => absorbStmt p.1 p.2) ++ ([cmd .finalize] ++ wait)) s =
        some (t, rs) ∧ rs.filterMap readData = [] ∧ t.Ready ∧ t.phase = .squeezing ∧ t.func = f ∧ t.be = be ∧
      t.outcnt = 0 ∧ t.transfer = outputStart f (message be pieces) := by
  have hcreated : (initEffect f be (s.respond .writeOkay)).Open := .inl (if_neg hf)
  obtain ⟨t, rs, hserve, hdata, hready, hopen, hfunc, hbe, hcnt, htransfer⟩ := serve_pieces (pieces := pieces)
    (s := initEffect f be (s.respond .writeOkay)) hs hcreated hlegal
  refine ⟨_, _, serve_append (serve_append (serve_init hs) hserve) (serve_finalize hready hopen),
    by rw [List.filterMap_append, List.filterMap_append, hdata]; rfl, ⟨hready.1, rfl⟩, rfl, hfunc, hbe, hcnt, ?_⟩
  have hpad : padLanes t = paddedBlock f (absorbBytes f.rate ⟨zeroLanes, 0, 0⟩ (message be pieces)) := by
    rw [hopen.padLanes, htransfer, hfunc]
    rfl
  exact congrArg (fun A => Transfer.mk (keccakP A) 0 0) hpad

/-! ## Squeezing the output (rules R169 and R170) -/

theorem State.overrun_eq_false_iff {s : State} {n : Nat} :
    s.overrun n = false ↔ ∀ d, s.func.outputBytes = some d → s.outcnt.toNat + n ≤ d := by
  unfold State.overrun
  cases s.func.outputBytes <;> simp

/-- Within the limit of a fixed output OUTCNT does not wrap. -/
theorem State.outcnt_add_toNat {s : State} {n d : Nat} (hfit : s.overrun n = false) (hd : s.func.outputBytes = some d) :
    (s.outcnt + BitVec.ofNat 8 n).toNat = s.outcnt.toNat + n := by
  have hle := State.overrun_eq_false_iff.1 hfit d hd
  obtain ⟨-, hd64, -⟩ := Func.outputBytes_lt_rate hd
  simp only [BitVec.toNat_add, BitVec.toNat_ofNat]
  omega

/-- From the output at `s`, `n` bytes were squeezed, and the last permutation is complete: this is `t`. If they did not
complete a fixed output, it goes on. -/
structure State.Squeezed (s : State) (n : Nat) (t : State) : Prop where
  ready : t.Ready
  func : t.func = s.func
  be : t.be = s.be
  outcnt : ∀ d, s.func.outputBytes = some d → t.outcnt.toNat = s.outcnt.toNat + n
  goesOn : s.func.outputBytes ≠ some (s.outcnt.toNat + n) →
    t.phase = .squeezing ∧ t.transfer = (squeezeBytes s.func.rate n s.transfer).2.restart

theorem squeezeEffect_dout (n : Nat) (s : State) :
    (squeezeEffect n s).dout = packOut s.be (squeezeBytes s.rate n s.transfer).1 := by
  simp [squeezeEffect, countOutput_port]

theorem countOutput_outcnt_of_fixed {s : State} {n d : Nat} (hd : s.func.outputBytes = some d) :
    (countOutput n s).outcnt = s.outcnt + BitVec.ofNat 8 n := by
  rw [countOutput_of_fixed hd]
  split <;> rfl

/-- A count that does not complete a fixed output leaves the phase and the loops' place alone. -/
theorem countOutput_goesOn {s : State} {n : Nat}
    (h : ∀ d, s.func.outputBytes = some d → (s.outcnt + BitVec.ofNat 8 n).toNat ≠ d) :
    (countOutput n s).phase = s.phase ∧ (countOutput n s).lanes = s.lanes ∧ (countOutput n s).cursor = s.cursor := by
  obtain ⟨-, heq⟩ | ⟨d, hd, ⟨-, heq⟩ | ⟨hcomplete, -⟩⟩ := countOutput_cases n s
  · rw [heq]; exact ⟨rfl, rfl, rfl⟩
  · rw [heq]; exact ⟨rfl, rfl, rfl⟩
  · exact absurd hcomplete (h d hd)

theorem squeezeEffect_outcnt_of_fixed {s : State} {n d : Nat} (hd : s.func.outputBytes = some d) :
    (squeezeEffect n s).outcnt = s.outcnt + BitVec.ofNat 8 n :=
  (State.markBusy_outcnt _ _).trans (countOutput_outcnt_of_fixed hd)

theorem squeezeEffect_goesOn {s : State} {n : Nat}
    (h : ∀ d, s.func.outputBytes = some d → (s.outcnt + BitVec.ofNat 8 n).toNat ≠ d) :
    (squeezeEffect n s).phase = s.phase ∧
      (squeezeEffect n s).transfer = (squeezeBytes s.rate n s.transfer).2.restart := by
  obtain ⟨hphase, hlanes, hcursor⟩ := countOutput_goesOn (n := n)
    (s := (s.setTransfer (squeezeBytes s.rate n s.transfer).2).setDout (packOut s.be (squeezeBytes s.rate n s.transfer).1)) h
  refine ⟨(State.markBusy_phase _ _).trans hphase, ?_⟩
  exact congrArg₂ (Transfer.mk · · 0) ((State.markBusy_lanes _ _).trans hlanes)
    ((State.markBusy_cursor _ _).trans hcursor)

theorem squeezeEffect_squeezed {s : State} {n : Nat} (hs : s.Ready) (hp : s.phase = .squeezing)
    (hfit : s.overrun n = false) : s.Squeezed n ((squeezeEffect n s).setBusy false) where
  ready := ⟨by simp [squeezeEffect, countOutput_port, hs.1], rfl⟩
  func := (squeezeEffect_frame n s).1
  be := (squeezeEffect_frame n s).2.1
  outcnt d hd := by
    rw [← State.outcnt_add_toNat hfit hd, State.setBusy_outcnt, squeezeEffect_outcnt_of_fixed hd]
  goesOn hmore := by
    have hne (d : Nat) (hd : s.func.outputBytes = some d) : (s.outcnt + BitVec.ofNat 8 n).toNat ≠ d := by
      rw [State.outcnt_add_toNat hfit hd]
      rintro rfl
      exact hmore hd
    have hrate : s.rate = s.func.rate := State.rate_of_sponge (by simp [hp]) (by simp [hp])
    obtain ⟨hphase, htransfer⟩ := squeezeEffect_goesOn hne
    rw [hrate] at htransfer
    exact ⟨hphase.trans hp, htransfer⟩

/-- A SQUEEZE within the limits gives the next bytes of the output in the answer to the read of DOUT. -/
theorem serve_squeezeStmt {s : State} {n : BitVec 4} (hs : s.Ready) (hp : s.phase = .squeezing) (hn : n.toNat ≤ 8)
    (hfit : s.overrun n.toNat = false) :
    ∃ t v, serve (squeezeStmt n) s = some (t, [.writeOkay, .readOkay v]) ∧
      inBytes s.be v n.toNat = (squeezeBytes s.func.rate n.toNat s.transfer).1 ∧ s.Squeezed n.toNat t := by
  have hacc : s.Accepts (.squeeze n) := hs.accepts (decide_eq_true hn) (by rw [hp]; rfl) hfit
  have hrate : s.rate = s.func.rate := State.rate_of_sponge (by simp [hp]) (by simp [hp])
  obtain ⟨hready, hfunc, hbe, hcnt, hgoesOn⟩ :=
    squeezeEffect_squeezed (s := s.respond .writeOkay) (n := n.toNat) hs hp hfit
  refine ⟨_, _, serve_append (serve_cmd_wait hacc) (serve_rd_dout rfl), ?_, hready, hfunc, hbe, hcnt, hgoesOn⟩
  have hdout : (squeezeEffect n.toNat (s.respond .writeOkay)).dout =
      packOut s.be (squeezeBytes s.func.rate n.toNat s.transfer).1 := by
    rw [squeezeEffect_dout, ← hrate]
    rfl
  have hlen := squeezeBytes_length s.func.rate n.toNat s.transfer
  calc inBytes s.be (squeezeEffect n.toNat (s.respond .writeOkay)).dout n.toNat
      = inBytes s.be (packOut s.be (squeezeBytes s.func.rate n.toNat s.transfer).1)
          (squeezeBytes s.func.rate n.toNat s.transfer).1.length := by rw [hdout, hlen]
    _ = (squeezeBytes s.func.rate n.toNat s.transfer).1 := inBytes_packOut s.be (by rw [hlen]; exact hn)

/-- The counts keep within D when `done` bytes of the output were given before: `CountsFit` from the middle of an output. -/
def CountsFitAfter (f : Func) (done : Nat) (ns : List (BitVec 4)) : Prop :=
  ∀ d, f.outputBytes = some d → done + requested ns ≤ d ∧ ∀ k < ns.length, done + requested (ns.take k) < d

@[simp] theorem requested_nil : requested [] = 0 := rfl
@[simp] theorem requested_cons (n : BitVec 4) (ns : List (BitVec 4)) : requested (n :: ns) = n.toNat + requested ns := by
  simp [requested]

theorem countsFitAfter_zero {f : Func} {ns : List (BitVec 4)} (h : CountsFit f ns) : CountsFitAfter f 0 ns := by
  simpa [CountsFitAfter, CountsFit] using h

section
variable {f : Func} {done : Nat} {n : BitVec 4} {ns : List (BitVec 4)}

theorem CountsFitAfter.head (h : CountsFitAfter f done (n :: ns)) {d : Nat} (hd : f.outputBytes = some d) :
    done + n.toNat ≤ d := by
  obtain ⟨hle, -⟩ := h d hd
  rw [requested_cons] at hle
  omega

theorem CountsFitAfter.tail (h : CountsFitAfter f done (n :: ns)) {done' : Nat}
    (hdone : ∀ d, f.outputBytes = some d → done' = done + n.toNat) : CountsFitAfter f done' ns := by
  intro d hd
  obtain ⟨hle, hmore⟩ := h d hd
  rw [hdone d hd]
  refine ⟨by rw [requested_cons] at hle; omega, fun k hk => ?_⟩
  have := hmore (k + 1) (Nat.succ_lt_succ hk)
  rw [List.take_succ_cons, requested_cons] at this
  omega

/-- A SQUEEZE that others follow does not complete a fixed output. -/
theorem CountsFitAfter.goesOn (h : CountsFitAfter f done (n :: ns)) (hns : ns ≠ []) :
    f.outputBytes ≠ some (done + n.toNat) := by
  intro hd
  obtain ⟨-, hmore⟩ := h _ hd
  have := hmore 1 (Nat.succ_lt_succ (List.length_pos_iff.2 hns))
  simp at this

end

theorem output_of_noData (be : Bool) (counts : List (BitVec 4)) {rs : List Response} (rs' : List Response)
    (h : rs.filterMap readData = []) : output be counts (rs ++ rs') = output be counts rs' := by
  simp only [output, List.filterMap_append, h, List.nil_append]

theorem output_squeezeStmt (be : Bool) (n : BitVec 4) (counts : List (BitVec 4)) (v : Word) (rs : List Response) :
    output be (n :: counts) ([.writeOkay, .readOkay v] ++ rs) = inBytes be v n.toNat ++ output be counts rs := rfl

/-- The SQUEEZEs of a session give, one after the other, the bytes that one loop would give. -/
theorem serve_squeezes {counts : List (BitVec 4)} {s : State} (hs : s.Ready)
    (hp : counts ≠ [] → s.phase = .squeezing) (hlegal : LegalCounts counts)
    (hfit : CountsFitAfter s.func s.outcnt.toNat counts) :
    ∃ t rs, serve (counts.flatMap squeezeStmt) s = some (t, rs) ∧ t.err = .noError ∧
      output s.be counts rs = (squeezeBytes s.func.rate (requested counts) s.transfer).1 := by
  induction counts generalizing s with
  | nil => exact ⟨s, [], rfl, hs.1, rfl⟩
  | cons n ns ih =>
    obtain ⟨hn, hrest⟩ := List.forall_mem_cons.1 hlegal
    obtain ⟨t, v, hserve, hbytes, ht⟩ := serve_squeezeStmt hs (hp (List.cons_ne_nil n ns)) hn
      (State.overrun_eq_false_iff.2 fun d hd => hfit.head hd)
    have hnext (hns : ns ≠ []) := ht.goesOn (hfit.goesOn hns)
    obtain ⟨u, rs, hserve', herr, hout⟩ := ih ht.ready (fun hns => (hnext hns).1) hrest
      (ht.func ▸ hfit.tail ht.outcnt)
    have hplace : (squeezeBytes s.func.rate (requested ns) t.transfer).1 =
        (squeezeBytes s.func.rate (requested ns) (squeezeBytes s.func.rate n.toNat s.transfer).2.restart).1 := by
      by_cases hns : ns = []
      · rw [hns]; rfl
      · rw [(hnext hns).2]
    refine ⟨u, _, serve_append hserve hserve', herr, ?_⟩
    rw [ht.be, ht.func] at hout
    rw [output_squeezeStmt, hbytes, hout, hplace, requested_cons, squeezeBytes_add_restart]

/-! ## The output of a session (rules R71 and R175) -/

/-- A session runs without an error, and its output is a function of the function, the message and the length. -/
theorem serve_session {s : State} {f : Func} {be : Bool} {pieces : List (BitVec 4 × Word)} {counts : List (BitVec 4)}
    (hs : s.Ready) (hf : f ≠ .raw) (hpieces : LegalCounts (pieces.map Prod.fst)) (hcounts : LegalCounts counts)
    (hfit : CountsFit f counts) :
    ∃ t rs, serve (session f be pieces counts) s = some (t, rs) ∧ t.err = .noError ∧
      output be counts rs = sessionOutput f (message be pieces) (requested counts) := by
  obtain ⟨t, rs, hserve, hdata, hready, hphase, rfl, rfl, hcnt, hstart⟩ := serve_beforeOutput (be := be) hs hf hpieces
  obtain ⟨u, rs', hserve', herr, hout⟩ := serve_squeezes hready (fun _ => hphase) hcounts
    (by rw [hcnt]; exact countsFitAfter_zero hfit)
  refine ⟨u, _, serve_append hserve hserve', herr, ?_⟩
  rw [output_of_noData _ _ _ hdata, hout, hstart, sessionOutput]

/-- Settles O55: each session's output is the same function of its message, which does not read BE. -/
theorem outputIsIndependentOfTheByteOrder : Obligations.OutputIsIndependentOfTheByteOrder := by
  intro s f le be counts hs hf hle hbe hcounts hfit hmessage
  obtain ⟨t, rs, hserve, -, hout⟩ := serve_session (be := false) hs hf hle hcounts hfit
  obtain ⟨t', rs', hserve', -, hout'⟩ := serve_session (be := true) hs hf hbe hcounts hfit
  exact ⟨t, rs, t', rs', hserve, hserve', by rw [hout, hout', hmessage]⟩

end Sys2Proof.Machine
end

section
/-! Proofs of the family 30_encoding: words and commands are one another's encoding and decoding (rules R90 to R100),
and issuing a command's word runs the command (rule R231). -/

namespace Sys2Proof

/-- Settles O4: a command's word decodes to the verdict on its operands, which is OK when they are legal. -/
theorem decodeOfEncode : Obligations.DecodeOfEncode := fun _ => Machine.decode_encode

/-! ## OP and its numbers (rule R92) -/

/-- The number of an opcode: OP of its commands' words (rule R92). -/
def Opcode.code : Opcode → BitVec 8
  | .nop => 0x00
  | .init => 0x01
  | .absorb => 0x02
  | .finalize => 0x03
  | .squeeze => 0x04
  | .finish => 0x05
  | .permute => 0x06
  | .laneWr => 0x07
  | .laneRd => 0x08
  | .clrerr => 0x09

theorem Opcode.ofCode?_eq_some_iff {c : BitVec 8} {op : Opcode} : Opcode.ofCode? c = some op ↔ c = op.code := by
  revert c; cases op <;> decide

theorem Opcode.ofCode?_eq_none_iff {c : BitVec 8} : Opcode.ofCode? c = none ↔ 9 < c.toNat := by
  revert c; decide

theorem Opcode.exists_code_of_le_nine {c : BitVec 8} (h : c.toNat ≤ 9) : ∃ op : Opcode, c = op.code := by
  cases hop : ofCode? c with
  | none => exact absurd (ofCode?_eq_none_iff.1 hop) (not_lt.2 h)
  | some op => exact ⟨op, ofCode?_eq_some_iff.1 hop⟩

theorem Instr.op_eq_code (i : Instr) : i.op = i.opcode.code := by cases i <;> rfl

/-! ## ARG and its legal values (rule R93) -/

/-- The number ARG holds legal operands under an opcode: all of w[12:8], the bits that must be 0 included (rule R93). -/
def LegalArg : Opcode → Nat → Prop
  | .nop, arg | .finalize, arg | .finish, arg | .permute, arg | .clrerr, arg => arg = 0
  | .init, arg => arg % 16 ∈ [0, 1, 2, 3, 4, 5, 15]
  | .absorb, arg | .squeeze, arg => arg ≤ 8
  | .laneWr, arg | .laneRd, arg => arg ≤ 24

theorem legalArg_iff_wellFormed (i : Instr) : LegalArg i.opcode i.arg.toNat ↔ i.WellFormed := by
  cases i with
  | nop | finalize | finish | permute | clrerr => exact iff_of_true rfl rfl
  | init func be => revert func be; simp only [LegalArg, Instr.opcode]; decide
  | absorb n | squeeze n => revert n; simp only [LegalArg, Instr.opcode]; decide
  | laneWr idx | laneRd idx => simp [LegalArg, Instr.opcode, Instr.arg, Instr.WellFormed, Instr.wellFormed, laneField]

/-- A legal ARG is that of a command of the opcode. -/
theorem exists_instr_of_legalArg {op : Opcode} {arg : BitVec 5} (h : LegalArg op arg.toNat) :
    ∃ i : Instr, i.opcode = op ∧ i.arg = arg := by
  have hzero (h : arg.toNat = 0) : 0 = arg := (BitVec.eq_of_toNat_eq h).symm
  cases op with
  | nop => exact ⟨.nop, rfl, hzero h⟩
  | finalize => exact ⟨.finalize, rfl, hzero h⟩
  | finish => exact ⟨.finish, rfl, hzero h⟩
  | permute => exact ⟨.permute, rfl, hzero h⟩
  | clrerr => exact ⟨.clrerr, rfl, hzero h⟩
  | init => exact ⟨.init (arg.extractLsb' 0 4) (arg.getLsbD 4), rfl, by clear h; revert arg; decide⟩
  | absorb => exact ⟨.absorb (arg.extractLsb' 0 4), rfl, by simp only [LegalArg] at h; revert arg; decide⟩
  | squeeze => exact ⟨.squeeze (arg.extractLsb' 0 4), rfl, by simp only [LegalArg] at h; revert arg; decide⟩
  | laneWr => exact ⟨.laneWr arg, rfl, rfl⟩
  | laneRd => exact ⟨.laneRd arg, rfl, rfl⟩

theorem decodeOperand_of_legalArg {op : Opcode} {arg : BitVec 5} (h : LegalArg op arg.toNat) :
    ∃ i, decodeOperand op arg = .command i ∧ i.opcode = op ∧ i.arg = arg ∧ i.WellFormed := by
  obtain ⟨i, rfl, rfl⟩ := exists_instr_of_legalArg h
  have hwf : i.WellFormed := (legalArg_iff_wellFormed i).1 h
  refine ⟨i, ?_, rfl, rfl, hwf⟩
  rw [Machine.decodeOperand_arg, Instr.checked, (verdict_ok_iff i).2 hwf]

/-- An ARG that is not legal is BAD_CONFIG under INIT and ILLEGAL_OPERAND under every other opcode (rule R96). -/
theorem decodeOperand_of_not_legalArg {op : Opcode} {arg : BitVec 5} (h : ¬ LegalArg op arg.toNat) :
    decodeOperand op arg = if op = .init then .badConfig else .illegalOperand op := by
  cases op <;> simp only [LegalArg] at h <;> revert arg <;> decide

/-! ## The decoder by the three fields (rule R96) -/

theorem decode_of_reserved {w : Word} (h : 9 < (opField w).toNat) : decode w = .illegalOpcode := by
  rw [decode, Opcode.ofCode?_eq_none_iff.2 h]

section
variable {w : Word} {op : Opcode} (hop : opField w = op.code)
include hop

theorem decode_of_code : decode w = if resField w ≠ 0 then .illegalOperand op else decodeOperand op (argField w) := by
  rw [decode, Opcode.ofCode?_eq_some_iff.2 hop]

theorem decode_of_reservedBit (hres : resField w ≠ 0) : decode w = .illegalOperand op := by
  rw [decode_of_code hop, if_pos hres]

theorem decode_of_noReservedBit (hres : resField w = 0) : decode w = decodeOperand op (argField w) := by
  rw [decode_of_code hop, if_neg (not_not.2 hres)]

end

/-- The fields of a word that decodes to a command are that command's, with legal operands. -/
theorem fields_of_decode {w : Word} {i : Instr} (h : decode w = .command i) :
    resField w = 0 ∧ argField w = i.arg ∧ opField w = i.op ∧ i.WellFormed := by
  have hop9 : (opField w).toNat ≤ 9 := by
    by_contra hlt
    rw [decode_of_reserved (not_le.1 hlt)] at h
    cases h
  obtain ⟨op, hop⟩ := Opcode.exists_code_of_le_nine hop9
  have hres : resField w = 0 := by
    by_contra hne
    rw [decode_of_reservedBit hop hne] at h
    cases h
  rw [decode_of_noReservedBit hop hres] at h
  by_cases hlegal : LegalArg op (argField w).toNat
  · obtain ⟨j, hj, rfl, harg, hwf⟩ := decodeOperand_of_legalArg hlegal
    obtain rfl : j = i := by simpa [hj] using h
    exact ⟨hres, harg.symm, by rw [hop, Instr.op_eq_code], hwf⟩
  · rw [decodeOperand_of_not_legalArg hlegal] at h
    split at h <;> cases h

/-- Settles O5: a word is its three fields, and the decoder accepts only a command's own. -/
theorem encodeOfDecode : Obligations.EncodeOfDecode := by
  intro w i h
  obtain ⟨hres, harg, hop, hwf⟩ := fields_of_decode h
  refine ⟨?_, hwf⟩
  calc encode i = resField w ++ argField w ++ opField w := by rw [hres, harg, hop]; rfl
    _ = w := word_eq_fields w

/-- A word is a command of an opcode exactly by its three fields. -/
theorem decodes_to_opcode_iff (w : Word) (op : Opcode) : (∃ i, decode w = .command i ∧ i.opcode = op) ↔
    resField w = 0 ∧ opField w = op.code ∧ LegalArg op (argField w).toNat := by
  constructor
  · rintro ⟨i, hdecode, rfl⟩
    obtain ⟨hres, harg, hop, hwf⟩ := fields_of_decode hdecode
    exact ⟨hres, by rw [hop, Instr.op_eq_code], by rw [harg]; exact (legalArg_iff_wellFormed i).2 hwf⟩
  · rintro ⟨hres, hop, hlegal⟩
    obtain ⟨i, hi, hopcode, -, -⟩ := decodeOperand_of_legalArg hlegal
    exact ⟨i, (decode_of_noReservedBit hop hres).trans hi, hopcode⟩

/-! ## The three fields as numbers (rule R90) -/

theorem opField_toNat (w : Word) : (opField w).toNat = w.toNat % 256 := by
  simp [opField]

theorem argField_toNat (w : Word) : (argField w).toNat = w.toNat / 256 % 32 := by
  simp [argField, Nat.shiftRight_eq_div_pow]

theorem resField_toNat (w : Word) : (resField w).toNat = w.toNat / 8192 := by
  simp [resField, Nat.shiftRight_eq_div_pow]
  omega

theorem resField_eq_zero_iff (w : Word) : resField w = 0 ↔ w.toNat / 8192 = 0 := by
  rw [BitVec.toNat_eq, resField_toNat]; rfl

/-! ## The rows of rule R99 -/

theorem word_eq_iff (v w : Word) :
    v = w ↔ resField v = resField w ∧ argField v = argField w ∧ opField v = opField w := by
  refine ⟨fun h => by simp [h], fun ⟨hres, harg, hop⟩ => ?_⟩
  rw [← word_eq_fields v, hres, harg, hop, word_eq_fields]

/-- Each row's mask covers RES and OP, and its match holds the opcode's number over RES = 0 and ARG = 0. -/
theorem tableRow_fields (op : Opcode) :
    (resField (Machine.tableMask op) = BitVec.allOnes 51 ∧ opField (Machine.tableMask op) = BitVec.allOnes 8) ∧
    resField (Machine.tableMatch op) = 0 ∧ argField (Machine.tableMatch op) = 0 ∧
      opField (Machine.tableMatch op) = op.code := by
  cases op <;> decide

theorem matches_row_iff (w : Word) (op : Opcode) : w &&& Machine.tableMask op = Machine.tableMatch op ↔
    resField w = 0 ∧ opField w = op.code ∧ argField w &&& argField (Machine.tableMask op) = 0 := by
  obtain ⟨⟨hresMask, hopMask⟩, hres, harg, hop⟩ := tableRow_fields op
  have hresAnd : resField (w &&& Machine.tableMask op) = resField w := by
    rw [resField, BitVec.extractLsb'_and]; exact (congrArg _ hresMask).trans BitVec.and_allOnes
  have hopAnd : opField (w &&& Machine.tableMask op) = opField w := by
    rw [opField, BitVec.extractLsb'_and]; exact (congrArg _ hopMask).trans BitVec.and_allOnes
  have hargAnd : argField (w &&& Machine.tableMask op) = argField w &&& argField (Machine.tableMask op) :=
    BitVec.extractLsb'_and
  rw [word_eq_iff, hresAnd, hopAnd, hargAnd, hres, harg, hop]
  tauto

/-- The bits of ARG under a row's mask are 0 and its fields are legal exactly when ARG is legal as a number. -/
theorem maskedArg_and_tableLegal_iff (w : Word) (op : Opcode) :
    (argField w &&& argField (Machine.tableMask op) = 0 ∧ Machine.tableLegal op w) ↔
      LegalArg op (argField w).toNat := by
  have hlow : w.toNat / 256 % 16 = (argField w).toNat % 16 := by rw [argField_toNat]; omega
  have hall : w.toNat / 256 % 32 = (argField w).toNat := (argField_toNat w).symm
  unfold Machine.tableLegal
  rw [hlow, hall]
  generalize argField w = arg
  cases op <;> simp only [LegalArg] <;> revert arg <;> decide

/-- Settles O6: under its mask a row fixes RES, OP and the bits of ARG outside its fields. -/
theorem wordsDecodeByMatchAndMask : Obligations.WordsDecodeByMatchAndMask := by
  intro w op
  rw [decodes_to_opcode_iff, matches_row_iff, ← maskedArg_and_tableLegal_iff]
  tauto

/-! ## The verdict in the rule's order (rule R96) -/

section
variable {w : Word} {op : Opcode} (hop : opField w = op.code) (hres : w.toNat / 8192 = 0)
include hop hres

theorem decode_of_legalArg (h : LegalArg op (w.toNat / 256 % 32)) : ∃ i, decode w = .command i := by
  rw [← argField_toNat] at h
  obtain ⟨i, hi, -⟩ := (decodes_to_opcode_iff w op).2 ⟨(resField_eq_zero_iff w).2 hres, hop, h⟩
  exact ⟨i, hi⟩

theorem decode_of_not_legalArg (h : ¬ LegalArg op (w.toNat / 256 % 32)) :
    decode w = if op = .init then .badConfig else .illegalOperand op := by
  rw [← argField_toNat] at h
  rw [decode_of_noReservedBit hop ((resField_eq_zero_iff w).2 hres), decodeOperand_of_not_legalArg h]

theorem illegalOperand_of_not_legalArg (hinit : op ≠ .init) (h : ¬ LegalArg op (w.toNat / 256 % 32)) :
    ∃ o, decode w = .illegalOperand o :=
  ⟨op, by rw [decode_of_not_legalArg hop hres h, if_neg hinit]⟩

end

/-- The numbers of the opcodes without an operand. -/
theorem opcode_without_operand {c : BitVec 8} (h : c.toNat ∈ [0, 3, 5, 6, 9]) :
    ∃ op : Opcode, c = op.code ∧ op ≠ .init ∧ ∀ arg, LegalArg op arg ↔ arg = 0 := by
  obtain ⟨op, rfl⟩ := Opcode.exists_code_of_le_nine (c := c) (by simp at h; omega)
  refine ⟨op, rfl, ?_⟩
  cases op with
  | nop | finalize | finish | permute | clrerr => exact ⟨nofun, fun _ => Iff.rfl⟩
  | init | absorb | squeeze | laneWr | laneRd => exact absurd h (by decide)

/-- The numbers of the opcodes with a byte count. -/
theorem opcode_with_count {c : BitVec 8} (h : c.toNat ∈ [2, 4]) :
    ∃ op : Opcode, c = op.code ∧ op ≠ .init ∧ ∀ arg, LegalArg op arg ↔ arg ≤ 8 := by
  obtain ⟨op, rfl⟩ := Opcode.exists_code_of_le_nine (c := c) (by simp at h; omega)
  refine ⟨op, rfl, ?_⟩
  cases op with
  | absorb | squeeze => exact ⟨nofun, fun _ => Iff.rfl⟩
  | nop | init | finalize | finish | permute | laneWr | laneRd | clrerr => exact absurd h (by decide)

/-- The numbers of the opcodes with a lane index. -/
theorem opcode_with_lane {c : BitVec 8} (h : c.toNat ∈ [7, 8]) :
    ∃ op : Opcode, c = op.code ∧ op ≠ .init ∧ ∀ arg, LegalArg op arg ↔ arg ≤ 24 := by
  obtain ⟨op, rfl⟩ := Opcode.exists_code_of_le_nine (c := c) (by simp at h; omega)
  refine ⟨op, rfl, ?_⟩
  cases op with
  | laneWr | laneRd => exact ⟨nofun, fun _ => Iff.rfl⟩
  | nop | init | absorb | finalize | squeeze | finish | permute | clrerr => exact absurd h (by decide)

/-- Settles O7: the decoder by OP, RES and the legal values of ARG, each clause at its opcodes. -/
theorem decodeVerdictInOrder : Obligations.DecodeVerdictInOrder := by
  rintro w _ _ _ rfl rfl rfl
  rw [← opField_toNat]
  have hinit (h : (opField w).toNat = 1) : opField w = Opcode.init.code := BitVec.eq_of_toNat_eq h
  refine ⟨decode_of_reserved, fun hop hres => ?_, fun hop hres harg => ?_, fun hop hres harg => ?_,
    fun hop hres harg => ?_, fun hop hres => decode_of_not_legalArg (hinit hop) hres, fun hop hres harg => ?_,
    fun hop hres harg => ?_, fun hop hres harg => ?_, fun hop hres => decode_of_legalArg (hinit hop) hres⟩
  · obtain ⟨op, hcode⟩ := Opcode.exists_code_of_le_nine hop
    exact ⟨op, decode_of_reservedBit hcode (mt (resField_eq_zero_iff w).1 hres)⟩
  · obtain ⟨op, hcode, hne, hlegal⟩ := opcode_without_operand hop
    exact illegalOperand_of_not_legalArg hcode hres hne (mt (hlegal _).1 harg)
  · obtain ⟨op, hcode, hne, hlegal⟩ := opcode_with_count hop
    exact illegalOperand_of_not_legalArg hcode hres hne (by rw [hlegal]; omega)
  · obtain ⟨op, hcode, hne, hlegal⟩ := opcode_with_lane hop
    exact illegalOperand_of_not_legalArg hcode hres hne (by rw [hlegal]; omega)
  · obtain ⟨op, hcode, -, hlegal⟩ := opcode_without_operand hop
    exact decode_of_legalArg hcode hres ((hlegal _).2 harg)
  · obtain ⟨op, hcode, -, hlegal⟩ := opcode_with_count hop
    exact decode_of_legalArg hcode hres ((hlegal _).2 harg)
  · obtain ⟨op, hcode, -, hlegal⟩ := opcode_with_lane hop
    exact decode_of_legalArg hcode hres ((hlegal _).2 harg)

/-- Settles O3: sixteen fixed words, decoded one by one. -/
theorem wordsOfTheSpecDecode : Obligations.WordsOfTheSpecDecode := by
  refine ⟨?_, ?_, ?_, ?_, ?_, ?_, ?_, ?_, ?_, ?_, ?_, ?_, ?_, ?_, ?_, ?_⟩ <;> decide

end Sys2Proof

namespace Sys2Proof.Machine

/-! ## Issuing a command's word (rule R231) -/

/-- Operands that are not legal fail the checks before the output limit is looked at. -/
theorem issueError_of_not_ok {v : Verdict} (h : v ≠ .ok) (op : Opcode) (s : State) :
    ∃ c, ∀ overrun, issueError (some op) v overrun s = some c := by
  by_cases hbusy : (s.busy && !acceptedWhileBusy op) = true
  · exact ⟨.busy, fun _ => if_pos hbusy⟩
  · cases v with
    | ok => exact absurd rfl h
    | illegalOperand => exact ⟨.illegal, fun _ => if_neg hbusy⟩
    | badConfig => exact ⟨.config, fun _ => if_neg hbusy⟩

/-- With operands that are not legal, neither the output limit nor the effect matters. -/
theorem issue_of_not_ok {v : Verdict} (h : v ≠ .ok) (op : Opcode) (o o' : Bool) (e e' : State → State) (s : State) :
    issue (some op) v o e s = issue (some op) v o' e' s := by
  by_cases herr : s.err = .noError
  · obtain ⟨c, hc⟩ := issueError_of_not_ok h op s
    rw [issue_raises herr (hc o), issue_raises herr (hc o')]
  · rw [issue_locked herr, issue_locked herr]

theorem exec_of_not_ok {i : Instr} (h : i.verdict ≠ .ok) (s : State) :
    exec i s = .next (issue (some i.opcode) i.verdict false id s) := by
  have hclrerr : i ≠ .clrerr := fun hi => h (hi ▸ rfl)
  rw [exec_eq_issue (.inl hclrerr), issue_of_not_ok h]

/-- Only INIT can be BAD_CONFIG. -/
theorem opcode_of_badConfig {i : Instr} (h : i.verdict = .badConfig) : i.opcode = .init := by
  cases i with
  | init func be => rfl
  | absorb n | squeeze n => simp only [Instr.verdict, countVerdict] at h; split at h <;> cases h
  | laneWr idx | laneRd idx => simp only [Instr.verdict, laneVerdict] at h; split at h <;> cases h
  | nop | finalize | finish | permute | clrerr => cases h

/-- Settles O9: the word decodes to the verdict on the operands, and a verdict that is not OK is reported the same way
by the word's arm and by the command's own. -/
theorem encodedWordIssuesTheCommand : Obligations.EncodedWordIssuesTheCommand := by
  intro i s
  rw [issueCommand, decode_encode_checked, Instr.checked]
  cases hverdict : i.verdict with
  | ok => rfl
  | illegalOperand => rw [exec_of_not_ok (by simp [hverdict]), hverdict]
  | badConfig => rw [exec_of_not_ok (by simp [hverdict]), hverdict, opcode_of_badConfig hverdict]

end Sys2Proof.Machine
end

section
/-! Proofs of the family 40_permutation: lane rotation (rules R121 and R122), the step mappings lane by lane (rules R124
to R129), the two tables and their recurrences (rules R125, R126, R130 and R131), the order of the rounds (rules R132 and
R133), and that KeccakP is a bijection (rule R136). -/

namespace Sys2Proof.Machine

/-! ## Lane rotation (rules R121 and R122) -/

theorem rot64_zero (v : Word) : rot64 v 0 = v := rfl

theorem rot64_eq_shifts (v : Word) {n : Nat} (h : 1 ≤ n) : rot64 v n = (v <<< n) ||| (v >>> (64 - n)) :=
  if_neg (Nat.one_le_iff_ne_zero.1 h)

/-- The model's rotation is the library's. -/
theorem rot64_eq_rotateLeft (v : Word) {n : Nat} (h : n < 64) : rot64 v n = v.rotateLeft n := by
  rcases Nat.eq_zero_or_pos n with rfl | hpos
  · simp [rot64_zero, BitVec.rotateLeft_def, BitVec.ushiftRight_eq_zero]
  · rw [rot64_eq_shifts v hpos, BitVec.rotateLeft_def, Nat.mod_eq_of_lt h]

/-- Where each bit of a rotated word comes from. -/
theorem rot64_getLsbD (v : Word) {n z : Nat} (hn : n < 64) (hz : z < 64) :
    (rot64 v n).getLsbD z = v.getLsbD ((z + (64 - n)) % 64) := by
  rw [rot64_eq_rotateLeft v hn, BitVec.getLsbD_rotateLeft_of_le hn]
  by_cases hlow : z < n
  · rw [show (z + (64 - n)) % 64 = 64 - n + z by omega]
    simp [hlow]
  · rw [show (z + (64 - n)) % 64 = z - n by omega]
    simp [hlow, hz]

theorem rot64_rot64 (v : Word) {a b : Nat} (ha : a < 64) (hb : b < 64) :
    rot64 (rot64 v a) b = rot64 v ((a + b) % 64) := by
  apply BitVec.eq_of_getLsbD_eq
  intro z hz
  rw [rot64_getLsbD _ hb hz, rot64_getLsbD _ ha (by omega), rot64_getLsbD _ (by omega) hz]
  congr 1
  omega

theorem rot64_bijective {n : Nat} (h : n < 64) : Function.Bijective fun v : Word => rot64 v n := by
  have hback : (64 - n) % 64 < 64 := by omega
  refine Function.bijective_iff_has_inverse.2 ⟨fun v => rot64 v ((64 - n) % 64), fun v => ?_, fun v => ?_⟩
  · exact (rot64_rot64 v h hback).trans (by rw [show (n + (64 - n) % 64) % 64 = 0 by omega, rot64_zero])
  · exact (rot64_rot64 v hback h).trans (by rw [show ((64 - n) % 64 + n) % 64 = 0 by omega, rot64_zero])

theorem rot64_xor (v w : Word) {n : Nat} (h : n < 64) : rot64 (v ^^^ w) n = rot64 v n ^^^ rot64 w n := by
  apply BitVec.eq_of_getLsbD_eq
  intro z hz
  simp only [BitVec.getLsbD_xor, rot64_getLsbD _ h hz]

/-- Settles O46: each bit's new place from the library's rotation, and the laws of rule R122 from it. -/
theorem rotationMovesBitsAndComposes : Obligations.RotationMovesBitsAndComposes := by
  refine ⟨rot64_zero, fun v n h _ => rot64_eq_shifts v h, fun v n z hn hz => ?_,
    fun v a b => rot64_rot64 v, fun n => rot64_bijective, fun v => BitVec.xor_allOnes.symm⟩
  rw [rot64_getLsbD v hn (by omega), show ((z + n) % 64 + (64 - n)) % 64 = z by omega]

/-! ## The step mappings by lane index (rules R124, R125 and R127 to R129) -/

/-- Every lane index is that of a column and a row (rule R10). -/
theorem exists_coords {l : Nat} (h : l < 25) : ∃ x y : Fin 5, l = x.val + 5 * y.val :=
  ⟨⟨l % 5, by omega⟩, ⟨l / 5, by omega⟩, by simp only; omega⟩

@[simp] theorem lane_theta (A : Lanes) (x y : Fin 5) : lane (theta A) x y = lane A x y ^^^ thetaD A x :=
  lane_ofCoords _ x y

@[simp] theorem lane_rho (A : Lanes) (x y : Fin 5) : lane (rho A) x y = rot64 (lane A x y) (rhoOffset x y) :=
  lane_ofCoords _ x y

@[simp] theorem lane_pi (A : Lanes) (x y : Fin 5) : lane (pi A) x y = lane A (x + 3 * y) x :=
  lane_ofCoords _ x y

@[simp] theorem lane_chi (A : Lanes) (x y : Fin 5) :
    lane (chi A) x y = lane A x y ^^^ (~~~lane A (x + 1) y &&& lane A (x + 2) y) :=
  lane_ofCoords _ x y

theorem thetaC_eq_columnParity (A : Lanes) (x : Fin 5) : thetaC A x = columnParity A x.val := by
  simp only [thetaC, columnParity, lane_eq_readLane]
  rfl

/-- The source lane of pi's table is the lane of rule R127's formula. -/
theorem piSource_getD (x y : Fin 5) : piSource.getD (x.val + 5 * y.val) 0 = (x + 3 * y).val + 5 * x.val := by
  decide +revert

theorem iota_eq_writeLane (i : Nat) (A : Lanes) : iota i A = writeLane A 0 (readLane A 0 ^^^ roundConstant i) := rfl

theorem readLane_iota (i : Nat) (A : Lanes) (l : Nat) :
    readLane (iota i A) l = if l = 0 then readLane A 0 ^^^ roundConstant i else readLane A l := by
  simp [iota_eq_writeLane, eq_comm]

@[simp] theorem lane_replicate (v : Word) (x y : Fin 5) : lane (Vector.replicate 25 v) x y = v := by
  simp [lane]

/-- The lane file of one word in every lane is fixed by chi when that word is all zeros or all ones (rule R128). -/
theorem chi_replicate {v : Word} (h : ~~~v &&& v = 0) : chi (Vector.replicate 25 v) = Vector.replicate 25 v :=
  lanes_ext_coords fun x y => by rw [lane_chi]; simp [h]

/-- Settles O47: each mapping at the column and the row of the lane index. -/
theorem stepMappingsByLaneIndex : Obligations.StepMappingsByLaneIndex := by
  intro A l hl
  obtain ⟨x, y, rfl⟩ := exists_coords hl
  have hcol (k : Nat) : (x.val + 5 * y.val + k) % 5 = (x.val + k) % 5 := by omega
  have hrow : (x.val + 5 * y.val) / 5 * 5 = 5 * y.val := by omega
  have hpred : (x - 1).val = (x.val + 4) % 5 := by rw [sub_eq_add_neg]; rfl
  refine ⟨?_, ?_, ?_, ?_, fun i => readLane_iota i A _, chi_replicate (by decide), chi_replicate (by decide)⟩
  · rw [← lane_eq_readLane, ← lane_eq_readLane, lane_theta, thetaD, thetaC_eq_columnParity, thetaC_eq_columnParity,
      hcol, hcol, hpred]
    rfl
  · rw [← lane_eq_readLane, lane_rho, ← lane_eq_readLane]
    rfl
  · rw [← lane_eq_readLane, lane_pi, lane_eq_readLane, piSource_getD]
  · rw [← lane_eq_readLane, lane_chi, hcol, hcol, hrow]
    simp only [lane_eq_readLane]
    rfl

/-! ## The tables and their recurrences (rules R126, R130 and R131) -/

/-- Settles O48: the recurrence's 24 places and offsets, computed and compared with the table. -/
theorem rhoOffsetsFollowTheRecurrence : Obligations.RhoOffsetsFollowTheRecurrence :=
  ⟨rfl, by decide, by decide⟩

/-- The LFSR's constants, computed and compared with the table. -/
theorem roundConstant_eq_rcDerived : ∀ i < 24, roundConstant i = rcDerived i := by decide

theorem roundConstant_setBits : ∀ i < 24, ∀ z < 64, (roundConstant i).getLsbD z = true → z ∈ [0, 1, 3, 7, 15, 31, 63] := by
  decide

/-- Settles O49: the table row by row, the LFSR's constants and the set bits. -/
theorem roundConstantsFollowTheLfsr : Obligations.RoundConstantsFollowTheLfsr :=
  ⟨rfl, rfl, rfl, rfl, rfl, rfl, rfl, rfl, rfl, rfl, rfl, rfl, rfl, rfl, rfl, rfl, rfl, rfl, rfl, rfl, rfl, rfl, rfl, rfl,
    roundConstant_eq_rcDerived, roundConstant_setBits⟩

/-! ## The rounds in order (rules R132 and R133) -/

/-- The rounds 0 to n - 1 in increasing order. -/
def roundsBelow (n : Nat) (A : Lanes) : Lanes := (List.range n).foldl (fun A i => round i A) A

theorem roundsBelow_succ (n : Nat) (A : Lanes) : roundsBelow (n + 1) A = round n (roundsBelow n A) := by
  simp [roundsBelow, List.range_succ]

theorem keccakP_eq_roundsBelow (A : Lanes) : keccakP A = roundsBelow 24 A := rfl

/-- Settles O59: the states between the rounds are those of the first n rounds. -/
theorem roundsRunInOrder : Obligations.RoundsRunInOrder :=
  ⟨fun _ _ => rfl, fun A => ⟨(roundsBelow · A), rfl, fun i _ => roundsBelow_succ i A, keccakP_eq_roundsBelow A⟩⟩

/-! ## Each step mapping is injective (rule R136) -/

/-- Theta on the column parities, with the distance `a` of the two columns and the rotation `n` left open: theta's own are
both 1 (rule R124). -/
def parityMap (a : Fin 5) (n : Nat) (C : Fin 5 → Word) (x : Fin 5) : Word := C x ^^^ (C (x - a) ^^^ rot64 (C (x + a)) n)

/-- A column has five lanes, an odd number: XORing one word into each of them XORs it into their parity. -/
theorem xor_into_column (a b c d e w : Word) :
    (a ^^^ w) ^^^ (b ^^^ w) ^^^ (c ^^^ w) ^^^ (d ^^^ w) ^^^ (e ^^^ w) = (a ^^^ b ^^^ c ^^^ d ^^^ e) ^^^ w := by
  calc
    _ = (w ^^^ w) ^^^ (w ^^^ w) ^^^ ((a ^^^ b ^^^ c ^^^ d ^^^ e) ^^^ w) := by ac_rfl
    _ = (a ^^^ b ^^^ c ^^^ d ^^^ e) ^^^ w := by simp

theorem thetaC_theta (A : Lanes) : thetaC (theta A) = parityMap 1 1 (thetaC A) := by
  funext x
  simp only [thetaC, lane_theta]
  exact xor_into_column ..

theorem xor_crossTerms (c p q r s t : Word) :
    (c ^^^ (p ^^^ r)) ^^^ ((p ^^^ (q ^^^ s)) ^^^ (r ^^^ (s ^^^ t))) = c ^^^ (q ^^^ t) := by
  calc
    _ = (p ^^^ p) ^^^ (r ^^^ r) ^^^ (s ^^^ s) ^^^ (c ^^^ (q ^^^ t)) := by ac_rfl
    _ = c ^^^ (q ^^^ t) := by simp

/-- Two such maps of the same distance and rotation make one of twice both: the cross terms cancel. -/
theorem parityMap_parityMap (a : Fin 5) {n : Nat} (h : n < 64) (C : Fin 5 → Word) :
    parityMap a n (parityMap a n C) = parityMap (a + a) ((n + n) % 64) C := by
  funext x
  simp only [parityMap, rot64_xor _ _ h, rot64_rot64 _ h h, sub_add_cancel, add_sub_cancel_right, sub_sub, add_assoc]
  exact xor_crossTerms ..

theorem parityMap_injective_of_double {a : Fin 5} {n : Nat} (h : n < 64)
    (hdouble : Function.Injective (parityMap (a + a) ((n + n) % 64))) : Function.Injective (parityMap a n) := by
  have hcomp : parityMap a n ∘ parityMap a n = parityMap (a + a) ((n + n) % 64) := funext (parityMap_parityMap a h)
  exact Function.Injective.of_comp (hcomp ▸ hdouble)

theorem xor_threeNeighbours (c p q r s : Word) :
    (c ^^^ (p ^^^ s)) ^^^ ((q ^^^ (r ^^^ p)) ^^^ (r ^^^ (s ^^^ q))) = c := by
  calc
    _ = (p ^^^ p) ^^^ (q ^^^ q) ^^^ (r ^^^ r) ^^^ (s ^^^ s) ^^^ c := by ac_rfl
    _ = c := by simp

/-- At distance 4 and with no rotation the parity of three neighbours; the map of distance 3 undoes it. -/
theorem parityMap_unrotated_leftInverse : Function.LeftInverse (parityMap 3 0) (parityMap 4 0) := by
  intro C
  funext x
  have hsub (y : Fin 5) : y - 4 = y + 1 ∧ y - 3 = y + 2 := by decide +revert
  simp only [parityMap, rot64_zero, hsub, add_assoc, Fin.reduceAdd]
  exact xor_threeNeighbours ..

/-- Doubled six times, distance 1 is distance 4 modulo 5 and rotation 1 is no rotation modulo 64. -/
theorem parityMap_injective : Function.Injective (parityMap 1 1) := by
  have h6 : Function.Injective (parityMap 4 0) := parityMap_unrotated_leftInverse.injective
  have h5 : Function.Injective (parityMap 2 32) := parityMap_injective_of_double (by decide) h6
  have h4 : Function.Injective (parityMap 1 16) := parityMap_injective_of_double (by decide) h5
  have h3 : Function.Injective (parityMap 3 8) := parityMap_injective_of_double (by decide) h4
  have h2 : Function.Injective (parityMap 4 4) := parityMap_injective_of_double (by decide) h3
  have h1 : Function.Injective (parityMap 2 2) := parityMap_injective_of_double (by decide) h2
  exact parityMap_injective_of_double (by decide) h1

/-- The column parities after theta give those before it, and these give D. -/
theorem theta_injective : Function.Injective theta := by
  intro A B h
  have hC : thetaC A = thetaC B := parityMap_injective (by rw [← thetaC_theta, ← thetaC_theta, h])
  have hD (x : Fin 5) : thetaD A x = thetaD B x := by rw [thetaD, thetaD, hC]
  refine lanes_ext_coords fun x y => ?_
  have hlane : lane (theta A) x y = lane (theta B) x y := by rw [h]
  rwa [lane_theta, lane_theta, hD, BitVec.xor_left_inj] at hlane

theorem rhoOffset_lt (x y : Fin 5) : rhoOffset x y < 64 := by decide +revert

theorem rho_injective : Function.Injective rho := by
  intro A B h
  refine lanes_ext_coords fun x y => (rot64_bijective (rhoOffset_lt x y)).injective ?_
  simp only [← lane_rho, h]

/-- Pi moves the lane at (x, y) to (y, 2*x + 3*y) (rule R127). -/
theorem lane_pi_moved (A : Lanes) (x y : Fin 5) : lane (pi A) y (2 * x + 3 * y) = lane A x y := by
  rw [lane_pi, show y + 3 * (2 * x + 3 * y) = x by decide +revert]

theorem pi_injective : Function.Injective pi := by
  intro A B h
  refine lanes_ext_coords fun x y => ?_
  rw [← lane_pi_moved A, ← lane_pi_moved B, h]

/-- One bit `a` of a row, followed in the row by `b` to `e`, from the five bits chi gives. -/
theorem bool_chi_undone : ∀ a b c d e : Bool,
    ((a ^^ (!b && c)) ^^ (!(b ^^ (!c && d)) && ((c ^^ (!d && e)) ^^ (!(d ^^ (!e && a)) && (e ^^ (!a && b)))))) = a := by
  decide

/-- A lane of a state, from the row that chi makes of its row. -/
theorem lane_of_chi (A : Lanes) (x y : Fin 5) :
    lane (chi A) x y ^^^ (~~~lane (chi A) (x + 1) y &&&
      (lane (chi A) (x + 2) y ^^^ (~~~lane (chi A) (x + 3) y &&& lane (chi A) (x + 4) y))) = lane A x y := by
  apply BitVec.eq_of_getLsbD_eq
  intro z hz
  simp only [lane_chi, add_assoc, Fin.reduceAdd, add_zero, BitVec.getLsbD_xor, BitVec.getLsbD_and, BitVec.getLsbD_not, hz,
    decide_true, Bool.true_and]
  exact bool_chi_undone ..

theorem chi_injective : Function.Injective chi := by
  intro A B h
  refine lanes_ext_coords fun x y => ?_
  rw [← lane_of_chi A, ← lane_of_chi B, h]

theorem iota_injective (i : Nat) : Function.Injective (iota i) := by
  intro A B h
  refine lanes_ext fun l _ => ?_
  have hlane : readLane (iota i A) l = readLane (iota i B) l := by rw [h]
  rw [readLane_iota, readLane_iota] at hlane
  split at hlane
  · next hl => rwa [BitVec.xor_left_inj, ← hl] at hlane
  · exact hlane

/-! ## KeccakP is a bijection (rule R136) -/

theorem round_injective (i : Nat) : Function.Injective (round i) :=
  (iota_injective i).comp (chi_injective.comp (pi_injective.comp (rho_injective.comp theta_injective)))

theorem roundsBelow_injective (n : Nat) : Function.Injective (roundsBelow n) := by
  induction n with
  | zero => exact Function.injective_id
  | succ n ih =>
    intro A B h
    rw [roundsBelow_succ, roundsBelow_succ] at h
    exact ih (round_injective n h)

/-- There are finitely many lane files. -/
theorem finite_lanes : Finite Lanes :=
  Finite.of_injective (fun (A : Lanes) (l : Fin 25) => readLane A l)
    fun _ _ h => lanes_ext fun l hl => congrFun h ⟨l, hl⟩

/-- Settles O50: each round is injective, because each of its five mappings is, and the states are finitely many. -/
theorem permutationIsABijection : Obligations.PermutationIsABijection :=
  haveI := finite_lanes
  Finite.injective_iff_bijective.1 (roundsBelow_injective 24)

end Sys2Proof.Machine
end

section
/-! Proofs of the family 41_sponge: the errors of a command's words, each sponge command's effect, and that a session's
output is that of the one-shot reference (rules R161 to R175). -/

namespace Sys2Proof.Machine

/-! ## The errors of a command's words (rule R231) -/

section
variable {op : Opcode} {v : Verdict} {o : Bool} {s : State}

theorem issueError_busy (hb : s.busy = true) (ha : acceptedWhileBusy op = false) :
    issueError (some op) v o s = some .busy := by
  simp [issueError, hb, ha]

theorem issueError_illegal (hb : s.busy = false) : issueError (some op) .illegalOperand o s = some .illegal := by
  simp [issueError, hb]

theorem issueError_config (hb : s.busy = false) : issueError (some op) .badConfig o s = some .config := by
  simp [issueError, hb]

theorem issueError_sequence (hb : s.busy = false) (h : allowedIn op s.phase = false ∨ o = true) :
    issueError (some op) .ok o s = some .sequence := by
  obtain h | h := h <;> simp [issueError, hb, h]

end

theorem issue_next_raises {op : Option Opcode} {v : Verdict} {o : Bool} {e : State → State} {s : State} {c : ErrCode}
    (he : s.err = .noError) (hc : issueError op v o s = some c) :
    Host.Outcome.next (issue op v o e s) = (.next { s with err := c } : Host.Outcome State Fault Refusal) :=
  congrArg _ (issue_raises he hc)

theorem exec_raises {i : Instr} {s : State} {c : ErrCode} (he : s.err = .noError)
    (hc : issueError (some i.opcode) i.verdict (overrunOf i s) s = some c) : exec i s = .next { s with err := c } := by
  rw [exec_eq_issue (.inr he), issue_next_raises he hc]

section
variable {op : Opcode} {w : Word} (hop : opField w = op.code)
include hop

/-- A word under an opcode other than INIT whose bits above OP are not a legal ARG. -/
theorem decode_of_illegalWord (hinit : op ≠ .init) (h : ¬ (w.toNat / 8192 = 0 ∧ LegalArg op (w.toNat / 256 % 32))) :
    decode w = .illegalOperand op := by
  by_cases hres : w.toNat / 8192 = 0
  · rw [decode_of_not_legalArg hop hres fun harg => h ⟨hres, harg⟩, if_neg hinit]
  · exact decode_of_reservedBit hop (mt (resField_eq_zero_iff w).1 hres)

theorem decode_of_legalWord (hres : w.toNat / 8192 = 0) (harg : LegalArg op (w.toNat / 256 % 32)) :
    ∃ i, decode w = .command i ∧ i.opcode = op ∧ i.verdict = .ok := by
  obtain ⟨i, hdecode, hi⟩ := (decodes_to_opcode_iff w op).2
    ⟨(resField_eq_zero_iff w).2 hres, hop, by rwa [argField_toNat]⟩
  obtain ⟨-, -, -, hwf⟩ := fields_of_decode hdecode
  exact ⟨i, hdecode, hi, (verdict_ok_iff i).2 hwf⟩

/-- All that the decoder can say of a word that carries the number of an opcode. -/
theorem decode_cases_of_code : (∃ i, decode w = .command i ∧ i.opcode = op) ∨ decode w = .illegalOperand op ∨
    (op = .init ∧ decode w = .badConfig) := by
  by_cases hres : w.toNat / 8192 = 0
  · by_cases harg : LegalArg op (w.toNat / 256 % 32)
    · obtain ⟨i, hdecode, hi, -⟩ := decode_of_legalWord hop hres harg
      exact .inl ⟨i, hdecode, hi⟩
    · have hdecode := decode_of_not_legalArg hop hres harg
      by_cases hinit : op = .init
      · exact .inr (.inr ⟨hinit, by rwa [if_pos hinit] at hdecode⟩)
      · exact .inr (.inl (by rwa [if_neg hinit] at hdecode))
  · exact .inr (.inl (decode_of_reservedBit hop (mt (resField_eq_zero_iff w).1 hres)))

/-- A word is judged under the opcode it carries, whether its operands are legal or not. -/
theorem issueCommand_of_code {s : State} (he : s.err = .noError) :
    ∃ v o e, issueCommand w s = .next (issue (some op) v o e s) := by
  obtain ⟨i, hdecode, rfl⟩ | hdecode | ⟨rfl, hdecode⟩ := decode_cases_of_code hop
  · exact ⟨i.verdict, overrunOf i s, effectOf i, by rw [issueCommand, hdecode]; exact exec_eq_issue (.inr he)⟩
  · exact ⟨.illegalOperand, false, id, by rw [issueCommand, hdecode]⟩
  · exact ⟨.badConfig, false, id, by rw [issueCommand, hdecode]⟩

theorem issueCommand_busy {s : State} (he : s.err = .noError) (hb : s.busy = true) (ha : acceptedWhileBusy op = false) :
    issueCommand w s = .next { s with err := .busy } := by
  obtain ⟨v, o, e, hissue⟩ := issueCommand_of_code hop he
  rw [hissue, issue_next_raises he (issueError_busy hb ha)]

end

theorem issueCommand_illegal {op : Opcode} {w : Word} {s : State} (hd : decode w = .illegalOperand op)
    (he : s.err = .noError) (hb : s.busy = false) : issueCommand w s = .next { s with err := .illegal } := by
  rw [issueCommand, hd]
  exact issue_next_raises he (issueError_illegal hb)

/-- How the words of an opcode are refused, from its legal operands and its phases. -/
theorem refusesWords {op : Opcode} {legal : Nat → Prop} {phases : List Phase} (hbusy : acceptedWhileBusy op = false)
    (hinit : op ≠ .init) (hlegal : ∀ a, legal a ↔ a / 32 = 0 ∧ LegalArg op (a % 32))
    (hphases : ∀ p, p ∉ phases → allowedIn op p = false) : RefusesWords op.code legal phases := by
  intro s w he hop
  have hhigh : w.toNat / 256 / 32 = w.toNat / 8192 := Nat.div_div_eq_div_mul ..
  rw [hlegal, hhigh]
  refine ⟨fun hb => issueCommand_busy hop he hb hbusy,
    fun hb hbad => issueCommand_illegal (decode_of_illegalWord hop hinit hbad) he hb, fun hb ⟨hres, harg⟩ hphase => ?_⟩
  obtain ⟨i, hdecode, rfl, hok⟩ := decode_of_legalWord hop hres harg
  rw [issueCommand, hdecode]
  refine exec_raises he ?_
  rw [hok]
  exact issueError_sequence hb (.inl (hphases _ hphase))

theorem absorb_refusesWords : RefusesWords 0x02 (fun a => a ≤ 8) [.created, .absorbing] :=
  refusesWords (op := .absorb) rfl nofun (fun a => by simp only [LegalArg]; omega) fun p => by cases p <;> decide

theorem squeeze_refusesWords : RefusesWords 0x04 (fun a => a ≤ 8) [.squeezing] :=
  refusesWords (op := .squeeze) rfl nofun (fun a => by simp only [LegalArg]; omega) fun p => by cases p <;> decide

theorem finalize_refusesWords : RefusesWords 0x03 (fun a => a = 0) [.created, .absorbing] :=
  refusesWords (op := .finalize) rfl nofun (fun a => by simp only [LegalArg]; omega) fun p => by cases p <;> decide

theorem finish_refusesWords : RefusesWords 0x05 (fun a => a = 0) [.squeezing] :=
  refusesWords (op := .finish) rfl nofun (fun a => by simp only [LegalArg]; omega) fun p => by cases p <;> decide

/-! ## INIT and FINISH (rules R161, R172 and R173) -/

theorem exec_init {s : State} (hs : s.Ready) (f : Func) (be : Bool) :
    exec (.init f.code be) s = .next (initEffect f be s) := by
  have hacc : s.Accepts (.init f.code be) := hs.accepts (by cases f <;> rfl) rfl rfl
  rw [exec_of_accepts hacc, effectOf, Func.ofCode?_code]

/-- Settles O45: the effect of INIT reads no field of the old session. -/
theorem initHidesTheOldSession : Obligations.InitHidesTheOldSession := by
  refine ⟨fun s A p g b c o d f be hs => ?_, fun s t be idx hs ht hidx => ?_⟩
  · rw [exec_init hs]
    exact exec_init (s := ⟨A, p, g, b, s.err, s.busy, c, o, s.din, d, s.irqen, s.response, s.pending⟩) hs f be
  · obtain rfl : initEffect .raw be s = t := Host.Outcome.next.inj ((exec_init hs .raw be).symm.trans ht)
    have hacc : (initEffect .raw be s).Accepts (.laneRd idx) :=
      State.Ready.accepts hs (decide_eq_true hidx) rfl rfl
    exact ⟨_, exec_of_accepts hacc, readLane_zeroLanes _, hs.1⟩

/-- Settles O21: FINISH is `enterFinished`, and its words are refused by their operands and the phase. -/
theorem finishZeroesTheState : Obligations.FinishZeroesTheState := by
  refine ⟨fun s hs hp => ?_, finish_refusesWords⟩
  have hacc : s.Accepts .finish := hs.accepts rfl (by rw [hp]; rfl) rfl
  exact ⟨_, exec_of_accepts hacc, fun l _ => readLane_zeroLanes l, rfl⟩

/-- A word of INIT's opcode without a reserved bit is the word of INIT with its fields FUNC and BE (rule R93). -/
theorem init_word {w : Word} (hop : opField w = Opcode.init.code) (hres : w.toNat / 8192 = 0) :
    encode (.init (w.extractLsb' 8 4) (w.getLsbD 12)) = w := by
  have harg : (Instr.init (w.extractLsb' 8 4) (w.getLsbD 12)).arg = argField w := by
    have hbe : bit (w.getLsbD 12) = w.extractLsb' 12 1 := by
      apply BitVec.eq_of_getLsbD_eq
      intro j hj
      obtain rfl : j = 0 := by omega
      simp
    rw [Instr.arg, hbe]
    exact BitVec.extractLsb'_append_extractLsb'_eq_extractLsb' rfl
  calc encode (.init (w.extractLsb' 8 4) (w.getLsbD 12))
      = 0#51 ++ argField w ++ Opcode.init.code := by rw [encode, harg]; rfl
    _ = resField w ++ argField w ++ opField w := by rw [hop, (resField_eq_zero_iff w).2 hres]; rfl
    _ = w := word_eq_fields w

/-- Settles O17: INIT reads nothing of the session it ends, so a second one changes nothing; the errors of its words. -/
theorem initStartsAFreshSession : Obligations.InitStartsAFreshSession := by
  refine ⟨fun s f be hs => ⟨_, exec_init hs f be, fun l _ => readLane_zeroLanes l, rfl,
    exec_init (s := initEffect f be s) hs f be⟩, fun s w he hop => ?_⟩
  have hcode : opField w = Opcode.init.code := hop
  refine ⟨fun hb => issueCommand_busy hcode he hb rfl,
    fun hb hres => issueCommand_illegal (decode_of_reservedBit hcode (mt (resField_eq_zero_iff w).1 hres)) he hb,
    fun hb hres hlo hhi => ?_, fun _ hres _ => ?_⟩
  · have hdecode := decode_of_not_legalArg hcode hres (by simp [LegalArg]; omega)
    rw [issueCommand, hdecode, if_pos rfl]
    exact issue_next_raises he (issueError_config hb)
  · have hissue := encodedWordIssuesTheCommand (.init (w.extractLsb' 8 4) (w.getLsbD 12)) s
    rwa [init_word hcode hres] at hissue

/-! ## Cursors and counts as numbers -/

theorem toNat_ofNat_of_lt {n : Nat} {rate : BitVec 8} (h : n < rate.toNat) : (BitVec.ofNat 8 n).toNat = n := by
  have := rate.isLt
  rw [BitVec.toNat_ofNat, Nat.mod_eq_of_lt (by omega)]

theorem toNat_add_ofNat {c : BitVec 8} {n : Nat} (h : c.toNat + n < 256) :
    (c + BitVec.ofNat 8 n).toNat = c.toNat + n := by
  rw [BitVec.toNat_add, BitVec.toNat_ofNat]
  omega

theorem Func.rate_pos {f : Func} (hf : f ≠ .raw) : 0 < f.rate.toNat := by
  obtain ⟨hpos, -⟩ := Func.rate_bounds hf
  omega

/-! ## ABSORB (rules R163 and R164) -/

/-- Absorbing to the end of the block or past it: the filled block is permuted, and the other bytes are XORed in from
the start of the new one (rule R164). -/
theorem absorbBytes_crosses {rate : BitVec 8} {bs : List Byte} {t : Transfer} (hc : t.cursor.toNat < rate.toNat)
    (hfull : rate.toNat ≤ t.cursor.toNat + bs.length) (hroom : t.cursor.toNat + bs.length - rate.toNat < rate.toNat)
    (h200 : rate.toNat ≤ 200) :
    (absorbBytes rate t bs).cursor.toNat = t.cursor.toNat + bs.length - rate.toNat ∧
    (absorbBytes rate t bs).perms = t.perms + 1 ∧
    ∃ full,
      (∀ i, stateByte full i =
        if t.cursor.toNat ≤ i ∧ i < rate.toNat then stateByte t.lanes i ^^^ bs.getD (i - t.cursor.toNat) 0
        else stateByte t.lanes i) ∧
      ∀ i, stateByte (absorbBytes rate t bs).lanes i =
        if i < t.cursor.toNat + bs.length - rate.toNat then
          stateByte (keccakP full) i ^^^ bs.getD (rate.toNat - t.cursor.toNat + i) 0
        else stateByte (keccakP full) i := by
  obtain ⟨k, hk⟩ := Nat.exists_eq_add_of_le hc.le
  have hhead : (bs.take k).length = k := by rw [List.length_take]; omega
  have htail : (bs.drop k).length = t.cursor.toNat + bs.length - rate.toNat := by rw [List.length_drop]; omega
  obtain ⟨full, hfills, hbytes⟩ := absorbBytes_fills (bs := bs.take k) hc (by omega) h200
  have hwithin : (0 : BitVec 8).toNat + (bs.drop k).length < rate.toNat := by rw [htail]; simpa using hroom
  have hloop : absorbBytes rate t bs = absorbBytes rate ⟨keccakP full, 0, t.perms + 1⟩ (bs.drop k) := by
    rw [← hfills, ← absorbBytes_append, List.take_append_drop]
  obtain ⟨hcursor, hperms⟩ := absorbBytes_within (t := ⟨keccakP full, 0, t.perms + 1⟩) (bs.drop k) hwithin
  refine ⟨?_, by rw [hloop, hperms], full, fun i => ?_, fun i => ?_⟩
  · rw [hloop, hcursor, htail]
    exact (congrArg BitVec.toNat (BitVec.zero_add _)).trans (toNat_ofNat_of_lt hroom)
  · rw [hbytes]
    refine ite_congr rfl (fun hin => ?_) fun _ => rfl
    simp [show i - t.cursor.toNat < k by omega]
  · rw [hloop, stateByte_absorbBytes_within _ hwithin h200, htail, hk]
    simp

theorem inBytes_getD (be : Bool) (v : Word) {n k : Nat} (h : k < n) : (inBytes be v n).getD k 0 = inByte be v k := by
  simp [inBytes, h]

/-- RAW has no block for the cursor to be in. -/
theorem State.Open.func_ne_raw {s : State} (ho : s.Open) (hc : s.cursor.toNat < s.rate.toNat) : s.func ≠ .raw := by
  intro hraw
  simp [ho.rate, hraw, Func.rate] at hc

theorem State.Open.rate_bounds {s : State} (ho : s.Open) (hc : s.cursor.toNat < s.rate.toNat) :
    72 ≤ s.rate.toNat ∧ s.rate.toNat ≤ 168 := by
  obtain ⟨hpos, hle, -⟩ := Func.rate_bounds (ho.func_ne_raw hc)
  rw [ho.rate]
  exact ⟨hpos, hle⟩

theorem absorbEffect_lanes (n : Nat) (s : State) :
    (absorbEffect n s).lanes = (absorbBytes s.rate s.transfer (inBytes s.be s.din n)).lanes := by simp [absorbEffect]

theorem absorbEffect_cursor (n : Nat) (s : State) :
    (absorbEffect n s).cursor = (absorbBytes s.rate s.transfer (inBytes s.be s.din n)).cursor := by simp [absorbEffect]

/-- The fields that ABSORB may change. -/
theorem absorbEffect_changes (n : Nat) (s : State) : absorbEffect n s =
    { s with lanes := (absorbEffect n s).lanes, cursor := (absorbEffect n s).cursor, phase := .absorbing,
             busy := (absorbEffect n s).busy } := by
  ext1 <;> simp [absorbEffect]

section
variable {s : State} {n : Nat} (h200 : s.rate.toNat ≤ 200)
include h200

/-- An ABSORB that leaves room in the block. -/
theorem absorbEffect_within (hb : s.busy = false) (hroom : s.cursor.toNat + n < s.rate.toNat) :
    (absorbEffect n s).cursor.toNat = s.cursor.toNat + n ∧ (absorbEffect n s).busy = false ∧
    ∀ i, stateByte (absorbEffect n s).lanes i =
      if s.cursor.toNat ≤ i ∧ i < s.cursor.toNat + n then stateByte s.lanes i ^^^ inByte s.be s.din (i - s.cursor.toNat)
      else stateByte s.lanes i := by
  have hlen : s.transfer.cursor.toNat + (inBytes s.be s.din n).length < s.rate.toNat := by simpa using hroom
  obtain ⟨hcursor, hperms⟩ := absorbBytes_within (t := s.transfer) (inBytes s.be s.din n) hlen
  refine ⟨?_, by simp [absorbEffect, hperms, hb], fun i => ?_⟩
  · rw [absorbEffect_cursor, hcursor, inBytes_length]
    exact toNat_add_ofNat (c := s.cursor) (by omega)
  · rw [absorbEffect_lanes, stateByte_absorbBytes_within _ hlen h200, inBytes_length, State.transfer_cursor]
    exact ite_congr rfl (fun hin => by rw [inBytes_getD _ _ (by omega)]; rfl) fun _ => rfl

/-- An ABSORB that fills the block (rule R164). -/
theorem absorbEffect_crosses (hc : s.cursor.toNat < s.rate.toNat) (hfull : s.rate.toNat ≤ s.cursor.toNat + n)
    (hroom : s.cursor.toNat + n - s.rate.toNat < s.rate.toNat) :
    (absorbEffect n s).cursor.toNat = s.cursor.toNat + n - s.rate.toNat ∧ (absorbEffect n s).busy = true ∧
    ∃ full,
      (∀ i, stateByte full i =
        if s.cursor.toNat ≤ i ∧ i < s.rate.toNat then stateByte s.lanes i ^^^ inByte s.be s.din (i - s.cursor.toNat)
        else stateByte s.lanes i) ∧
      ∀ i, stateByte (absorbEffect n s).lanes i =
        if i < s.cursor.toNat + n - s.rate.toNat then
          stateByte (keccakP full) i ^^^ inByte s.be s.din (s.rate.toNat - s.cursor.toNat + i)
        else stateByte (keccakP full) i := by
  obtain ⟨hcursor, hperms, full, hbytes, hrest⟩ := absorbBytes_crosses (t := s.transfer) (bs := inBytes s.be s.din n) hc
    (by simpa using hfull) (by simpa using hroom) h200
  simp only [inBytes_length, State.transfer_cursor, State.transfer_lanes] at hcursor hbytes hrest
  refine ⟨by rw [absorbEffect_cursor, hcursor], by simp [absorbEffect, hperms], full, fun i => ?_, fun i => ?_⟩
  · rw [hbytes]
    exact ite_congr rfl (fun hin => by rw [inBytes_getD _ _ (by omega)]) fun _ => rfl
  · rw [absorbEffect_lanes, hrest]
    exact ite_congr rfl (fun hin => by rw [inBytes_getD _ _ (by omega)]) fun _ => rfl

end

theorem exec_absorb {s : State} {n : BitVec 4} (hs : s.Ready) (ho : s.Open) (hn : n.toNat ≤ 8) :
    exec (.absorb n) s = .next (absorbEffect n.toNat s) := by
  have hacc : s.Accepts (.absorb n) := hs.accepts (decide_eq_true hn) ho.allows.1 rfl
  exact exec_of_accepts hacc

/-- Settles O18: the bytes stay within the block, or fill it and go on in the next one. -/
theorem absorbXorsBytesAtTheCursor : Obligations.AbsorbXorsBytesAtTheCursor := by
  refine ⟨?_, absorb_refusesWords⟩
  rintro s n _ _ _ hs hopen hn rfl rfl rfl hc
  obtain ⟨hpos, hle⟩ := State.Open.rate_bounds hopen hc
  refine ⟨_, exec_absorb hs hopen hn, absorbEffect_changes .., fun hroom => ?_, fun hfull => ?_⟩
  · obtain ⟨hcursor, hbusy, hbytes⟩ := absorbEffect_within (by omega) hs.2 hroom
    exact ⟨hcursor, hbusy, fun i _ => hbytes i⟩
  · obtain ⟨hcursor, hbusy, full, hblock, hbytes⟩ := absorbEffect_crosses (by omega) hc hfull (by omega)
    exact ⟨hcursor, hbusy, full, fun i _ => hblock i, fun i _ => hbytes i⟩

/-! ## The byte loop of ABSORB, block by block (rules R163 to R165) -/

theorem xorBlock_concat (S : Lanes) (block : List Byte) (b : Byte) :
    xorBlock S (block ++ [b]) = xorStateByte (xorBlock S block) block.length b := by
  simp [xorBlock, List.zipIdx_append]

/-- Bytes that leave room in a new block are XORed in from its start. -/
theorem absorbBytes_partialBlock {rate : BitVec 8} (A : Lanes) (p : Nat) {bs : List Byte}
    (h : bs.length < rate.toNat) :
    absorbBytes rate ⟨A, 0, p⟩ bs = ⟨xorBlock A bs, BitVec.ofNat 8 bs.length, p⟩ := by
  induction bs using List.reverseRecOn with
  | nil => rfl
  | append_singleton bs b ih =>
    rw [List.length_append, List.length_singleton] at h
    have hcursor := toNat_ofNat_of_lt (n := bs.length) (rate := rate) (by omega)
    have hroom : BitVec.ofNat 8 bs.length + 1 ≠ rate := fun e => by
      have := congrArg BitVec.toNat e
      rw [toNat_add_one (r := rate) (by omega)] at this
      omega
    rw [absorbBytes_append, ih (by omega), absorbBytes_cons, absorbBytes_nil, absorbByte, if_neg hroom, hcursor,
      xorBlock_concat, List.length_append, List.length_singleton, BitVec.ofNat_add]
    rfl

/-- The bytes of a whole block are XORed in and permuted. -/
theorem absorbBytes_wholeBlock {rate : BitVec 8} (A : Lanes) (p : Nat) {bs : List Byte} (hpos : 0 < rate.toNat)
    (h : bs.length = rate.toNat) : absorbBytes rate ⟨A, 0, p⟩ bs = ⟨keccakP (xorBlock A bs), 0, p + 1⟩ := by
  obtain rfl | ⟨as, b, rfl⟩ := List.eq_nil_or_concat bs
  · rw [List.length_nil] at h
    omega
  · rw [List.concat_eq_append, List.length_append, List.length_singleton] at h
    have hcursor := toNat_ofNat_of_lt (n := as.length) (rate := rate) (by omega)
    have hfull : BitVec.ofNat 8 as.length + 1 = rate :=
      BitVec.eq_of_toNat_eq (by rw [toNat_add_one (r := rate) (by omega)]; omega)
    rw [List.concat_eq_append, absorbBytes_append, absorbBytes_partialBlock A p (by omega), absorbBytes_cons,
      absorbBytes_nil, absorbByte, if_pos hfull, hcursor, xorBlock_concat]

/-- The absorbing loop of the reference from any state; `absorbBlocks` starts it at the zero state. -/
def absorbBlocksFrom (rate : Nat) (A : Lanes) (padded : List Byte) : Lanes :=
  (chunks rate padded).foldl (fun S block => keccakP (xorBlock S block)) A

theorem absorbBlocks_eq (rate : Nat) (padded : List Byte) :
    absorbBlocks rate padded = absorbBlocksFrom rate zeroLanes padded := rfl

theorem chunks_nil {n : Nat} (h : 0 < n) : chunks n [] = [] := by
  simp [chunks, Nat.div_eq_of_lt, h]

theorem chunks_append_of_length_eq {n : Nat} (h : 0 < n) {as : List Byte} (ha : as.length = n) (bs : List Byte) :
    chunks n (as ++ bs) = as :: chunks n bs := by
  have hcount : ((as ++ bs).length + n - 1) / n = (bs.length + n - 1) / n + 1 := by
    rw [List.length_append, ← Nat.add_div_right _ h]
    congr 1
    omega
  have hhead : ((as ++ bs).drop (n * 0)).take n = as := by simp [← ha]
  have htail (j : Nat) : ((as ++ bs).drop (n * (j + 1))).take n = (bs.drop (n * j)).take n := by
    rw [Nat.mul_succ, Nat.add_comm, ← List.drop_drop, List.drop_left' ha]
  rw [chunks, hcount, List.range_succ_eq_map, List.map_cons, hhead, List.map_map]
  exact congrArg _ (List.map_congr_left fun j _ => htail j)

/-- Absorbing whole blocks from the start of a block is the absorbing loop of the reference. -/
theorem absorbBytes_wholeBlocks {rate : BitVec 8} (hpos : 0 < rate.toNat) (k : Nat) {bs : List Byte}
    (h : bs.length = rate.toNat * k) (A : Lanes) (p : Nat) :
    absorbBytes rate ⟨A, 0, p⟩ bs = ⟨absorbBlocksFrom rate.toNat A bs, 0, p + k⟩ := by
  induction k generalizing bs A p with
  | zero =>
    obtain rfl := List.length_eq_zero_iff.1 h
    rw [absorbBytes_nil, absorbBlocksFrom, chunks_nil hpos]
    rfl
  | succ k ih =>
    rw [Nat.mul_succ] at h
    have hblock : (bs.take rate.toNat).length = rate.toNat := by rw [List.length_take]; omega
    have hrest : (bs.drop rate.toNat).length = rate.toNat * k := by rw [List.length_drop]; omega
    rw [← List.take_append_drop rate.toNat bs, absorbBytes_append, absorbBytes_wholeBlock A p hpos hblock, ih hrest,
      absorbBlocksFrom, absorbBlocksFrom, chunks_append_of_length_eq hpos hblock, List.foldl_cons,
      Nat.add_right_comm p 1 k]
    rfl

/-- What a message leaves in the engine from a fresh state (rule R165): its whole blocks absorbed, the other bytes XORed
in, the cursor after them. -/
theorem absorbBytes_message {rate : BitVec 8} (hpos : 0 < rate.toNat) (M : List Byte) :
    absorbBytes rate ⟨zeroLanes, 0, 0⟩ M =
      ⟨xorBlock (absorbBlocks rate.toNat (M.take (rate.toNat * (M.length / rate.toNat))))
          (M.drop (rate.toNat * (M.length / rate.toNat))),
        BitVec.ofNat 8 (M.length % rate.toNat), M.length / rate.toNat⟩ := by
  have hlen := Nat.div_add_mod M.length rate.toNat
  have hmod := Nat.mod_lt M.length hpos
  have hfull : (M.take (rate.toNat * (M.length / rate.toNat))).length = rate.toNat * (M.length / rate.toNat) := by
    rw [List.length_take]; omega
  have hrest : (M.drop (rate.toNat * (M.length / rate.toNat))).length = M.length % rate.toNat := by
    rw [List.length_drop]; omega
  conv_lhs => rw [← List.take_append_drop (rate.toNat * (M.length / rate.toNat)) M]
  rw [absorbBytes_append, absorbBytes_wholeBlocks hpos _ hfull, absorbBytes_partialBlock _ _ (by omega), hrest,
    absorbBlocks_eq, Nat.zero_add]

/-- Settles O53: the ABSORBs run one loop over the message, from the fresh session's zero state. -/
theorem absorptionIsIndependentOfTheSplit : Obligations.AbsorptionIsIndependentOfTheSplit := by
  rintro s pieces _ _ _ hinv hs hp hlegal rfl rfl rfl
  obtain ⟨hlanes, hcursor, -, -, hf, -⟩ := hinv.created hp
  have hopen : s.Open := .inl hp
  have hpos : 0 < s.rate.toNat := hopen.rate ▸ Func.rate_pos hf
  have hfresh : s.transfer = ⟨zeroLanes, 0, 0⟩ := by rw [State.transfer, hlanes, hcursor]
  obtain ⟨t, rs, hserve, -, ht⟩ := serve_pieces hs hopen hlegal
  have htransfer := ht.transfer
  rw [hfresh, ← hopen.rate, absorbBytes_message hpos] at htransfer
  exact ⟨t, rs, hserve, ht.ready.1, (congrArg (fun u => u.cursor.toNat) htransfer).trans
    (toNat_ofNat_of_lt (Nat.mod_lt _ hpos)), congrArg Transfer.lanes htransfer⟩

/-! ## Padding (rules R162, R166 and R167) -/

/-- The message and its padding are whole blocks. -/
theorem add_padding_eq_blocks {rate : Nat} (hpos : 0 < rate) (len : Nat) :
    len + (rate - len % rate) = rate * (len / rate + 1) := by
  have hlen := Nat.div_add_mod len rate
  have hmod := Nat.mod_lt len hpos
  rw [Nat.mul_succ]
  omega

section
variable {f : Func} {len q : Nat} (hq : q = f.rate.toNat - len % f.rate.toNat)
include hq

theorem padBytes_of_eq_one (h : q = 1) : padBytes f len = [f.suffix ^^^ 0x80] := by
  rw [padBytes, ← hq, if_pos h]

theorem padBytes_of_ne_one (h : q ≠ 1) : padBytes f len = f.suffix :: (List.replicate (q - 2) 0x00 ++ [0x80]) := by
  rw [padBytes, ← hq, if_neg h]
  rfl

theorem padBytes_length (hpos : 1 ≤ q) : (padBytes f len).length = q := by
  by_cases h : q = 1
  · rw [padBytes_of_eq_one hq h, h]
    rfl
  · rw [padBytes_of_ne_one hq h, List.length_cons, List.length_append, List.length_replicate, List.length_singleton]
    omega

/-- The padding byte at place `j` of `q`: SUFFIX at the first, 0x80 at the last, both where these are one. -/
theorem padBytes_getD (hpos : 1 ≤ q) (j : Nat) :
    (padBytes f len).getD j 0 = (if j = 0 then f.suffix else 0) ^^^ (if j = q - 1 then 0x80 else 0) := by
  by_cases h : q = 1
  · rw [padBytes_of_eq_one hq h]
    cases j <;> simp [h]
  · rw [padBytes_of_ne_one hq h]
    cases j with
    | zero => simp [show ¬ 0 = q - 1 by omega]
    | succ j =>
      rw [List.getD_cons_succ, if_neg (Nat.succ_ne_zero j)]
      obtain hzeros | rfl | hpast := lt_trichotomy j (q - 2)
      · rw [List.getD_append _ _ _ _ (by simpa using hzeros), if_neg (by omega)]
        simp [hzeros]
      · rw [List.getD_append_right _ _ _ _ (by simp), if_pos (by omega)]
        simp
      · rw [List.getD_eq_default _ _ (by simp; omega), if_neg (by omega)]
        rfl

end

theorem stateByte_paddedBlock {f : Func} {t : Transfer} (hf : f ≠ .raw) (hc : t.cursor.toNat < f.rate.toNat) (i : Nat) :
    stateByte (paddedBlock f t) i = stateByte t.lanes i ^^^
      ((if i = t.cursor.toNat then f.suffix else 0) ^^^ (if i = f.rate.toNat - 1 then 0x80 else 0)) := by
  obtain ⟨-, hle, -⟩ := Func.rate_bounds hf
  have hc200 : t.cursor.toNat < 200 := by omega
  have hend : f.rate.toNat - 1 < 200 := by omega
  simp only [paddedBlock, stateByte_xorStateByte, hc200, hend, and_true, eq_comm (b := i)]
  split <;> split <;> simp [BitVec.xor_assoc]

/-- The block FINALIZE permutes has exactly the padding bytes XORed in from the cursor on. -/
theorem stateByte_paddedBlock_padBytes {f : Func} {len : Nat} {t : Transfer} (hf : f ≠ .raw)
    (hc : t.cursor.toNat = len % f.rate.toNat) (i : Nat) :
    stateByte (paddedBlock f t) i =
      if t.cursor.toNat ≤ i then stateByte t.lanes i ^^^ (padBytes f len).getD (i - t.cursor.toNat) 0
      else stateByte t.lanes i := by
  have hmod := Nat.mod_lt len (Func.rate_pos hf)
  rw [stateByte_paddedBlock hf (by omega), padBytes_getD rfl (by omega)]
  by_cases hin : t.cursor.toNat ≤ i
  · rw [if_pos hin]
    congr 2
    · exact if_congr (by omega) rfl rfl
    · exact if_congr (by omega) rfl rfl
  · rw [if_neg hin, if_neg (by omega), if_neg (by omega), BitVec.xor_self, BitVec.xor_zero]

/-- Absorbing the padding bytes XORs in what FINALIZE does, and permutes the filled block (rules R162 and R166). -/
theorem absorbBytes_padBytes {f : Func} {len : Nat} {t : Transfer} (hf : f ≠ .raw)
    (hc : t.cursor.toNat = len % f.rate.toNat) :
    absorbBytes f.rate t (padBytes f len) = ⟨keccakP (paddedBlock f t), 0, t.perms + 1⟩ := by
  obtain ⟨-, hle, -⟩ := Func.rate_bounds hf
  have hmod := Nat.mod_lt len (Func.rate_pos hf)
  have hlen := padBytes_length (f := f) (len := len) rfl (by omega)
  obtain ⟨full, habsorb, hfull⟩ :=
    absorbBytes_fills (rate := f.rate) (bs := padBytes f len) (t := t) (by omega) (by omega) (by omega)
  suffices heq : full = paddedBlock f t by rw [habsorb, heq]
  refine lanes_ext_bytes fun i _ => ?_
  rw [hfull, stateByte_paddedBlock_padBytes hf hc]
  by_cases hin : i < f.rate.toNat
  · simp only [hin, and_true]
  · rw [if_neg (by omega), if_pos (by omega), List.getD_eq_default _ _ (by omega), BitVec.ofNat_eq_ofNat,
      BitVec.xor_zero]

/-! ## FINALIZE (rules R162, R166 and R167) -/

theorem exec_finalize {s : State} (hs : s.Ready) (ho : s.Open) :
    exec .finalize s = .next { s with lanes := keccakP (paddedBlock s.func s.transfer), cursor := 0,
                                      phase := .squeezing, busy := true } := by
  have hacc : s.Accepts .finalize := hs.accepts rfl ho.allows.2 rfl
  rw [exec_of_accepts hacc, ← ho.padLanes]
  rfl

theorem Func.suffix_eq {f : Func} (hf : f ≠ .raw) : f.suffix = if f.outputBytes.isSome then 0x06 else 0x1F := by
  cases f with
  | raw => exact absurd rfl hf
  | sha3_224 | sha3_256 | sha3_384 | sha3_512 | shake128 | shake256 => rfl

/-- Settles O19: the block FINALIZE permutes, byte by byte. -/
theorem finalizePadsAndPermutes : Obligations.FinalizePadsAndPermutes := by
  refine ⟨fun s hs hopen hroom => ⟨_, exec_finalize hs hopen, ?_⟩, finalize_refusesWords⟩
  have hf := State.Open.func_ne_raw hopen hroom
  rw [State.Open.rate hopen] at hroom ⊢
  have hbyte := stateByte_paddedBlock (t := s.transfer) hf hroom
  have hsuffix := Func.suffix_eq hf
  refine ⟨fun i _ hc hend => ?_, fun hne => ⟨?_, ?_⟩, fun heq => ⟨?_, fun hd => ?_, fun hd => ?_⟩⟩
  · simp [hbyte, hc, hend]
  · simp [hbyte, hne]
  · simp [hbyte, Ne.symm hne]
  · simp [hbyte, ← heq]
  · rw [hsuffix, if_pos hd]; rfl
  · rw [hsuffix, hd]; rfl

/-- Settles O52: SUFFIX and 0x80 at their places are the padding bytes from the cursor on. -/
theorem finalizeXorsThePaddingBytes : Obligations.FinalizeXorsThePaddingBytes := by
  intro f len q hf hq
  have hpos := Func.rate_pos hf
  have hmod := Nat.mod_lt len hpos
  refine ⟨by omega, by omega, ?_, padBytes_length hq (by omega), padBytes_of_eq_one hq, padBytes_of_ne_one hq,
    Func.suffix_eq hf, ?_⟩
  · rw [hq, add_padding_eq_blocks hpos, Nat.mul_mod_right]
  · rintro s hs hopen rfl hcursor
    exact ⟨_, exec_finalize hs hopen, fun i _ => stateByte_paddedBlock_padBytes hf hcursor i⟩

/-! ## SQUEEZE (rules R169, R170 and R173) -/

/-- Squeezing at most a block, whether the block's end is passed or not (rule R169). -/
theorem squeezeBytes_atMostBlock {rate : BitVec 8} {n : Nat} {t : Transfer} (hc : t.cursor.toNat ≤ rate.toNat)
    (hn : n ≤ rate.toNat) :
    (squeezeBytes rate n t).1 = (List.range n).map (fun k =>
      if t.cursor.toNat + k < rate.toNat then stateByte t.lanes (t.cursor.toNat + k)
      else stateByte (keccakP t.lanes) (t.cursor.toNat + k - rate.toNat)) ∧
    (squeezeBytes rate n t).2.lanes = (if rate.toNat < t.cursor.toNat + n then keccakP t.lanes else t.lanes) ∧
    (squeezeBytes rate n t).2.cursor.toNat =
      (if rate.toNat < t.cursor.toNat + n then t.cursor.toNat + n - rate.toNat else t.cursor.toNat + n) ∧
    (squeezeBytes rate n t).2.perms = (if rate.toNat < t.cursor.toNat + n then t.perms + 1 else t.perms) := by
  have hr := rate.isLt
  by_cases hcross : rate.toNat < t.cursor.toNat + n
  · rw [squeezeBytes_crosses n hc hcross hn]
    simp only [hcross, if_true, true_and, and_true]
    rw [BitVec.toNat_ofNat, Nat.mod_eq_of_lt (by omega)]
  · rw [squeezeBytes_within n (by omega)]
    simp only [hcross, if_false, true_and, and_true]
    refine ⟨List.map_congr_left fun k hk => ?_, toNat_add_ofNat (by omega)⟩
    rw [if_pos (by have := List.mem_range.1 hk; omega)]

theorem countOutput_busy_pending (n : Nat) (s : State) :
    (countOutput n s).busy = s.busy ∧ (countOutput n s).pending = s.pending := by
  obtain ⟨-, h⟩ | ⟨d, -, ⟨-, h⟩ | ⟨-, h⟩⟩ := countOutput_cases n s <;> rw [h] <;> exact ⟨rfl, rfl⟩

/-- The fields that SQUEEZE may change. -/
theorem squeezeEffect_changes (n : Nat) (s : State) : squeezeEffect n s =
    { s with lanes := (squeezeEffect n s).lanes, cursor := (squeezeEffect n s).cursor,
             dout := (squeezeEffect n s).dout, outcnt := (squeezeEffect n s).outcnt,
             phase := (squeezeEffect n s).phase, busy := (squeezeEffect n s).busy } := by
  ext1 <;> simp [squeezeEffect, countOutput_frame, countOutput_port, countOutput_busy_pending]

/-- The SQUEEZE that brings the count of a fixed output to D ends it (rule R173). -/
theorem countOutput_completes {s : State} {n : Nat}
    (hd : s.func.outputBytes = some (s.outcnt + BitVec.ofNat 8 n).toNat) :
    (countOutput n s).phase = .finished ∧ (countOutput n s).lanes = zeroLanes ∧ (countOutput n s).cursor = 0 := by
  rw [countOutput_of_fixed hd, if_pos rfl]
  exact ⟨rfl, rfl, rfl⟩

theorem squeezeEffect_completes {s : State} {n : Nat}
    (hd : s.func.outputBytes = some (s.outcnt + BitVec.ofNat 8 n).toNat) :
    (squeezeEffect n s).phase = .finished ∧ (squeezeEffect n s).lanes = zeroLanes ∧ (squeezeEffect n s).cursor = 0 := by
  obtain ⟨hphase, hlanes, hcursor⟩ := countOutput_completes (n := n) (s := (s.setTransfer
    (squeezeBytes s.rate n s.transfer).2).setDout (packOut s.be (squeezeBytes s.rate n s.transfer).1)) hd
  exact ⟨(State.markBusy_phase _ _).trans hphase, (State.markBusy_lanes _ _).trans hlanes,
    (State.markBusy_cursor _ _).trans hcursor⟩

/-- Within the limit OUTCNT counts the bytes of a fixed output, and those alone (rules R35 and R169). -/
theorem squeezeEffect_outcnt {s : State} {n : Nat} (hfit : s.overrun n = false) :
    (squeezeEffect n s).outcnt.toNat =
      if s.func.outputBytes.isSome then s.outcnt.toNat + n else s.outcnt.toNat := by
  cases hd : s.func.outputBytes with
  | none => simp [squeezeEffect_of_xof hd]
  | some d =>
    rw [squeezeEffect_outcnt_of_fixed hd, State.outcnt_add_toNat hfit hd]
    rfl

section
variable {s : State} {n : Nat} (hc : s.cursor.toNat ≤ s.rate.toNat) (hn : n ≤ s.rate.toNat)
include hc hn

theorem squeezeEffect_inByte (h8 : n ≤ 8) {k : Nat} (hk : k < 8) : inByte s.be (squeezeEffect n s).dout k =
    if k < n then (if s.cursor.toNat + k < s.rate.toNat then stateByte s.lanes (s.cursor.toNat + k)
      else stateByte (keccakP s.lanes) (s.cursor.toNat + k - s.rate.toNat)) else 0 := by
  obtain ⟨hbytes, -⟩ := squeezeBytes_atMostBlock (t := s.transfer) hc hn
  rw [squeezeEffect_dout, inByte_packOut _ (by simpa using h8) hk, hbytes]
  by_cases hkn : k < n <;> simp [hkn]

/-- BUSY is set exactly when a byte past the block was asked for. -/
theorem squeezeEffect_busy :
    (squeezeEffect n s).busy = (s.busy || decide (s.rate.toNat < s.cursor.toNat + n)) := by
  obtain ⟨-, -, -, hperms⟩ := squeezeBytes_atMostBlock (t := s.transfer) hc hn
  have hpos : 0 < (squeezeBytes s.rate n s.transfer).2.perms ↔ s.rate.toNat < s.cursor.toNat + n := by
    rw [hperms]
    by_cases hcross : s.rate.toNat < s.cursor.toNat + n <;> simp [hcross]
  simp [squeezeEffect, countOutput_busy_pending, hpos]

/-- A SQUEEZE that does not complete a fixed output leaves the cursor after its bytes. -/
theorem squeezeEffect_place (hmore : ∀ d, s.func.outputBytes = some d → (s.outcnt + BitVec.ofNat 8 n).toNat ≠ d) :
    (squeezeEffect n s).lanes = (if s.rate.toNat < s.cursor.toNat + n then keccakP s.lanes else s.lanes) ∧
    (squeezeEffect n s).cursor.toNat =
      (if s.rate.toNat < s.cursor.toNat + n then s.cursor.toNat + n - s.rate.toNat else s.cursor.toNat + n) := by
  obtain ⟨-, hlanes, hcursor, -⟩ := squeezeBytes_atMostBlock (t := s.transfer) hc hn
  obtain ⟨-, htransfer⟩ := squeezeEffect_goesOn hmore
  exact ⟨(congrArg Transfer.lanes htransfer).trans hlanes,
    (congrArg (fun t => t.cursor.toNat) htransfer).trans hcursor⟩

end

/-- In a fixed output the cursor is the count, so a SQUEEZE within D stays within the block (rule R169). -/
theorem State.Inv.fixedOutput_within {s : State} (h : s.Inv) (hp : s.phase = .squeezing) {d n : Nat}
    (hd : s.func.outputBytes = some d) (hle : s.outcnt.toNat + n ≤ d) : s.cursor.toNat + n ≤ s.rate.toNat := by
  obtain ⟨-, ho, -⟩ := h.squeezing hp
  obtain ⟨-, hcursor⟩ := (State.outcntSqueezing_of_fixed hd).1 ho
  obtain ⟨-, -, hrate, -⟩ := Func.outputBytes_lt_rate hd
  rw [State.rate_of_sponge (s := s) (by simp [hp]) (by simp [hp]), hcursor]
  omega

theorem exec_squeeze {s : State} {n : BitVec 4} (hs : s.Ready) (hp : s.phase = .squeezing) (hn : n.toNat ≤ 8)
    (hfit : s.overrun n.toNat = false) : exec (.squeeze n) s = .next (squeezeEffect n.toNat s) := by
  have hacc : s.Accepts (.squeeze n) := hs.accepts (decide_eq_true hn) (by rw [hp]; rfl) hfit
  exact exec_of_accepts hacc

theorem exec_squeeze_overrun {s : State} {n : BitVec 4} (hs : s.Ready) (hn : n.toNat ≤ 8)
    (hover : s.overrun n.toNat = true) : exec (.squeeze n) s = .next { s with err := .sequence } := by
  refine exec_raises hs.1 ?_
  rw [(verdict_ok_iff (.squeeze n)).2 (decide_eq_true hn)]
  exact issueError_sequence hs.2 (.inr hover)

/-- Settles O20: the loop runs over at most one block's end, and the count ends a fixed output at D. -/
theorem squeezeEmitsBytesAtTheCursor : Obligations.SqueezeEmitsBytesAtTheCursor := by
  refine ⟨?_, fun s n d hs _ hn hd hover => exec_squeeze_overrun hs hn (by simpa [State.overrun, hd] using hover),
    squeeze_refusesWords⟩
  rintro s n _ _ _ hinv hs hp hn rfl rfl rfl hlimit
  obtain ⟨hc, -, hf⟩ := hinv.squeezing hp
  have hrate : s.rate = s.func.rate := State.rate_of_sponge (by simp [hp]) (by simp [hp])
  have hblock : n.toNat ≤ s.rate.toNat := by
    obtain ⟨h72, -⟩ := Func.rate_bounds hf
    rw [hrate]
    omega
  have hfit : s.overrun n.toNat = false := State.overrun_eq_false_iff.2 hlimit
  have hbusy : (squeezeEffect n.toNat s).busy = decide (s.rate.toNat < s.cursor.toNat + n.toNat) := by
    rw [squeezeEffect_busy hc hblock, hs.2, Bool.false_or]
  refine ⟨_, exec_squeeze hs hp hn hfit, squeezeEffect_changes .., fun k => squeezeEffect_inByte hc hblock hn, hbusy,
    squeezeEffect_outcnt hfit, fun hfixed => ?_, fun hd => ?_, fun hd => ?_⟩
  · obtain ⟨d, hd⟩ := Option.isSome_iff_exists.1 hfixed
    have := hinv.fixedOutput_within hp hd (hlimit d hd)
    rw [hbusy, decide_eq_false (by omega)]
  · exact squeezeEffect_completes (by rw [State.outcnt_add_toNat hfit hd, hd])
  · have hmore (d : Nat) (hd' : s.func.outputBytes = some d) : (s.outcnt + BitVec.ofNat 8 n.toNat).toNat ≠ d := by
      rw [State.outcnt_add_toNat hfit hd']
      rintro rfl
      exact hd hd'
    obtain ⟨hphase, -⟩ := squeezeEffect_goesOn hmore
    exact ⟨hphase.trans hp, squeezeEffect_place hc hblock hmore⟩

/-! ## The output of a session is the reference's (rules R171, R174 and R175) -/

/-- A session absorbs what the reference does: the blocks of the padded message. -/
theorem outputStart_eq {f : Func} (hf : f ≠ .raw) (m : List Byte) :
    outputStart f m = ⟨absorbBlocks f.rate.toNat (m ++ padBytes f m.length), 0, 0⟩ := by
  have hpos := Func.rate_pos hf
  have hmod := Nat.mod_lt m.length hpos
  have hcursor : (absorbBytes f.rate ⟨zeroLanes, 0, 0⟩ m).cursor.toNat = m.length % f.rate.toNat := by
    rw [absorbBytes_message hpos]
    exact toNat_ofNat_of_lt hmod
  have hlen : (m ++ padBytes f m.length).length = f.rate.toNat * (m.length / f.rate.toNat + 1) := by
    rw [List.length_append, padBytes_length rfl (by omega), add_padding_eq_blocks hpos]
  have hpadded := absorbBytes_append f.rate ⟨zeroLanes, 0, 0⟩ m (padBytes f m.length)
  rw [absorbBytes_padBytes hf hcursor, absorbBytes_wholeBlocks hpos _ hlen, ← absorbBlocks_eq] at hpadded
  exact (congrArg Transfer.restart hpadded).symm

/-- At the end of a block the next byte asked for permutes first, and the output goes on in the new block (R169). -/
theorem squeezeBytes_atBlockEnd {rate : BitVec 8} (hpos : 0 < rate.toNat) (S : Lanes) (n : Nat) :
    (squeezeBytes rate n ⟨S, rate, 0⟩).1 = (squeezeBytes rate n ⟨keccakP S, 0, 0⟩).1 := by
  have h0 : (0 : BitVec 8) ≠ rate := fun e => by simp [← e] at hpos
  cases n with
  | zero => rfl
  | succ n =>
    simp only [squeezeBytes, refill, if_neg h0, if_true]
    exact congrArg _ (squeezeBytes_perms ..)

/-- A block of the output, and the next one after a permutation, when it is asked for (rules R168 and R169). -/
theorem squeezeBytes_block_add {rate : BitVec 8} (hpos : 0 < rate.toNat) (S : Lanes) (n : Nat) :
    (squeezeBytes rate (rate.toNat + n) ⟨S, 0, 0⟩).1 =
      rateRegion rate.toNat S ++ (squeezeBytes rate n ⟨keccakP S, 0, 0⟩).1 := by
  have hblock : squeezeBytes rate rate.toNat ⟨S, 0, 0⟩ = (rateRegion rate.toNat S, ⟨S, rate, 0⟩) := by
    rw [squeezeBytes_within rate.toNat (by simp)]
    simp [rateRegion]
  rw [squeezeBytes_add_restart, hblock]
  exact congrArg _ (squeezeBytes_atBlockEnd hpos S n)

/-- The squeezing loop gives the start of the reference's blocks. -/
theorem squeezeBytes_eq_take {rate : BitVec 8} (hpos : 0 < rate.toNat) (blocks : Nat) {n : Nat}
    (h : n ≤ rate.toNat * blocks) (S : Lanes) :
    (squeezeBytes rate n ⟨S, 0, 0⟩).1 = (squeezeBlocks rate.toNat blocks S).take n := by
  induction blocks generalizing n S with
  | zero =>
    obtain rfl : n = 0 := by omega
    rfl
  | succ blocks ih =>
    have hlen : (rateRegion rate.toNat S).length = rate.toNat := by simp [rateRegion]
    rw [Nat.mul_succ] at h
    rw [squeezeBlocks]
    obtain hle | hgt := le_or_gt n rate.toNat
    · rw [squeezeBytes_within n (by simpa using hle), List.take_append_of_le_length (by omega), rateRegion,
        ← List.map_take, List.take_range, Nat.min_eq_left hle]
      simp
    · obtain ⟨m, rfl⟩ := Nat.exists_eq_add_of_le hgt.le
      rw [squeezeBytes_block_add hpos, ih (by omega), ← List.take_length_add_append, hlen]

theorem sessionOutput_eq_spongeRef {f : Func} (hf : f ≠ .raw) (m : List Byte) (len : Nat) :
    sessionOutput f m len = spongeRef f m len := by
  have hpos := Func.rate_pos hf
  rw [sessionOutput, outputStart_eq hf, spongeRef]
  exact squeezeBytes_eq_take hpos _ (Nat.lt_mul_div_succ len hpos).le _

/-- Settles O54: a session's output is one function of its message, and that function is the reference. -/
theorem sessionComputesTheSponge : Obligations.SessionComputesTheSponge := by
  intro s f be pieces counts hs hf hpieces hcounts hfit
  obtain ⟨t, rs, hserve, herr, hout⟩ := serve_session (be := be) hs hf hpieces hcounts hfit
  exact ⟨t, rs, hserve, herr, hout.trans (sessionOutput_eq_spongeRef hf _ _)⟩

theorem sessionOutput_length (f : Func) (m : List Byte) (len : Nat) : (sessionOutput f m len).length = len :=
  squeezeBytes_length ..

/-- A shorter output of the same message is the start of a longer one. -/
theorem sessionOutput_take (f : Func) (m : List Byte) {few many : Nat} (h : few ≤ many) :
    (sessionOutput f m many).take few = sessionOutput f m few := by
  obtain ⟨more, rfl⟩ := Nat.exists_eq_add_of_le h
  rw [sessionOutput, squeezeBytes_add_restart, List.take_append_of_le_length (by simp)]
  exact List.take_of_length_le (by simp)

/-- Settles O56: both outputs are the squeezing loop's from the same place, one run on further than the other. -/
theorem xofOutputIsAPrefix : Obligations.XofOutputIsAPrefix := by
  intro s f be pieces few many hs hf hpieces hfew hmany hle
  have hxof : f ≠ .raw ∧ f.outputBytes = none := by obtain rfl | rfl := hf <;> exact ⟨nofun, rfl⟩
  have hfit (counts : List (BitVec 4)) : CountsFit f counts := fun d hd => by simp [hxof.2] at hd
  obtain ⟨t, rs, hserve, -, hout⟩ := serve_session (be := be) hs hxof.1 hpieces hfew (hfit few)
  obtain ⟨t', rs', hserve', -, hout'⟩ := serve_session (be := be) hs hxof.1 hpieces hmany (hfit many)
  refine ⟨t, rs, t', rs', hserve, hserve', ?_, ?_⟩
  · rw [hout, hout', sessionOutput_take f _ hle]
  · rw [hout, sessionOutput_length]

end Sys2Proof.Machine
end

section
/-! Proofs of the family 42_raw_and_control: the raw-permutation commands PERMUTE, LANE_WR and LANE_RD (rules R200, R202
and R204), and the control commands NOP and CLRERR (rules R206 and R208). -/

namespace Sys2Proof.Machine

/-! ## PERMUTE, LANE_WR and LANE_RD (rules R200, R202 and R204) -/

theorem permute_refusesWords : RefusesWords 0x06 (fun a => a = 0) [.raw] :=
  refusesWords (op := .permute) rfl nofun (fun a => by simp only [LegalArg]; omega) fun p => by cases p <;> decide

theorem laneWr_refusesWords : RefusesWords 0x07 (fun a => a ≤ 24) [.raw] :=
  refusesWords (op := .laneWr) rfl nofun (fun a => by simp only [LegalArg]; omega) fun p => by cases p <;> decide

theorem laneRd_refusesWords : RefusesWords 0x08 (fun a => a ≤ 24) [.raw] :=
  refusesWords (op := .laneRd) rfl nofun (fun a => by simp only [LegalArg]; omega) fun p => by cases p <;> decide

/-- A well-formed command takes its effect in the RAW phase of a Ready state when rule R236 allows it there. -/
theorem exec_of_raw {i : Instr} {s : State} (hs : s.Ready) (hp : s.phase = .raw) (hi : i.WellFormed)
    (hraw : allowedIn i.opcode .raw = true) (hfits : overrunOf i s = false) : exec i s = .next (effectOf i s) :=
  exec_of_accepts (hs.accepts hi (by rwa [hp]) hfits)

/-- Settles O22: in RAW PERMUTE passes every check, and its words are refused by their operands and the phase. -/
theorem permuteAppliesThePermutation : Obligations.PermuteAppliesThePermutation :=
  ⟨fun _ hs hp => exec_of_raw (i := .permute) hs hp rfl rfl rfl, permute_refusesWords⟩

theorem readLane_laneWrEffect {l : Nat} (hl : l < 25) (s : State) (m : Nat) :
    readLane (laneWrEffect l s).lanes m = if m = l then s.din else readLane s.lanes m := by
  rw [laneWrEffect, State.setLanes_lanes, readLane_writeLane]
  exact if_congr ⟨fun h => h.1.symm, fun h => ⟨h.symm, hl⟩⟩ rfl rfl

/-- Settles O23: the lane written is the one that reads differently, and LANE_WR's words are refused by their operands
and the phase. -/
theorem laneWrWritesOneLane : Obligations.LaneWrWritesOneLane := by
  refine ⟨fun s idx hs hp hidx => ?_, laneWr_refusesWords⟩
  exact ⟨_, exec_of_raw (i := .laneWr idx) hs hp (decide_eq_true hidx) rfl rfl, rfl,
    fun l _ => readLane_laneWrEffect (Nat.lt_succ_of_le hidx) s l⟩

/-- Settles O24: in RAW LANE_RD passes every check, and its words are refused by their operands and the phase. -/
theorem laneRdReadsOneLane : Obligations.LaneRdReadsOneLane :=
  ⟨fun _ idx hs hp hidx => exec_of_raw (i := .laneRd idx) hs hp (decide_eq_true hidx) rfl rfl, laneRd_refusesWords⟩

/-! ## The commands that BUSY does not stop (rules R206 and R208) -/

theorem accepts_of_control {i : Instr} {s : State} (hi : i = .nop ∨ i = .clrerr) (he : s.err = .noError) :
    s.Accepts i := by
  refine ⟨he, fun _ => hi, ?_, ?_, ?_⟩ <;> obtain rfl | rfl := hi <;> rfl

/-- Under the lock every command but CLRERR is ignored (rule R233). -/
theorem exec_locked {i : Instr} {s : State} (he : s.err ≠ .noError) (hi : i ≠ .clrerr) : exec i s = .next s := by
  rw [exec_eq_issue (.inl hi), issue_locked he]

theorem exec_nop (s : State) : exec .nop s = .next s := by
  by_cases he : s.err = .noError
  · exact exec_of_accepts (accepts_of_control (.inl rfl) he)
  · exact exec_locked he nofun

theorem exec_clrerr (s : State) : exec .clrerr s = .next (clearError s) := by
  by_cases he : s.err = .noError
  · exact exec_of_accepts (accepts_of_control (.inr rfl) he)
  · exact exec_clrerr_locked he

section
variable {op : Opcode} (ha : acceptedWhileBusy op = true)
include ha

theorem legalArg_of_acceptedWhileBusy {a : Nat} (h : LegalArg op a) : a = 0 := by
  cases op with
  | nop | clrerr => exact h
  | init | absorb | finalize | squeeze | finish | permute | laneWr | laneRd => cases ha

/-- A word of NOP's or CLRERR's opcode that is not the bare opcode carries stray bits. -/
theorem decode_of_strayBits {w : Word} (hop : opField w = op.code) (hne : w ≠ 0#51 ++ 0#5 ++ op.code) :
    decode w = .illegalOperand op := by
  refine decode_of_illegalWord hop (by rintro rfl; cases ha) fun ⟨hres, hlegal⟩ => hne ?_
  have harg : argField w = 0#5 :=
    BitVec.eq_of_toNat_eq ((argField_toNat w).trans (legalArg_of_acceptedWhileBusy ha hlegal))
  calc w = resField w ++ argField w ++ opField w := (word_eq_fields w).symm
    _ = 0#51 ++ 0#5 ++ op.code := by rw [(resField_eq_zero_iff w).2 hres, harg, hop]; rfl

/-- Stray bits are ILLEGAL whatever BUSY is, and ignored under the lock. -/
theorem issueCommand_of_strayBits {w : Word} (hop : opField w = op.code) (hne : w ≠ 0#51 ++ 0#5 ++ op.code)
    (s : State) :
    (s.err = .noError → issueCommand w s = .next { s with err := .illegal }) ∧
    (s.err ≠ .noError → issueCommand w s = .next s) := by
  have hcheck : issueError (some op) .illegalOperand false s = some .illegal := by simp [issueError, ha]
  rw [issueCommand, decode_of_strayBits ha hop hne]
  exact ⟨fun he => issue_next_raises he hcheck, fun he => congrArg _ (issue_locked he)⟩

end

/-- Settles O16: the word 0x0 is NOP's own, and any other word of its opcode carries stray bits. -/
theorem nopHasNoEffect : Obligations.NopHasNoEffect :=
  ⟨fun s => ⟨exec_nop s, (encodedWordIssuesTheCommand .nop s).trans (exec_nop s)⟩,
    fun s _ hop hne => issueCommand_of_strayBits (op := .nop) rfl hop hne s⟩

/-- Settles O25: the lock keeps ERR from every other command, and a word of the opcode other than 0x9 carries stray
bits. -/
theorem clrerrClearsOnlyErr : Obligations.ClrerrClearsOnlyErr := by
  refine ⟨exec_clrerr, fun i s t h hs ht => ?_,
    fun s _ hop hne => issueCommand_of_strayBits (op := .clrerr) rfl hop hne s⟩
  by_contra hi
  obtain rfl : s = t := Host.Outcome.next.inj ((exec_locked hs hi).symm.trans h)
  exact hs ht

end Sys2Proof.Machine
end

section
/-! Proofs of the family 60_exceptions: the checks at issue, the error lock, the phases of the commands, and irq (rules
R231 to R242). -/

namespace Sys2Proof.Machine

/-! ## The checks at issue in their order (rules R231 and R236) -/

theorem mem_phaseRow_iff {op : Opcode} {p : Phase} : p ∈ phaseRow op ↔ allowedIn op p = true := by
  cases op <;> cases p <;> decide

theorem acceptedWhileBusy_iff {op : Opcode} : acceptedWhileBusy op = true ↔ op = .nop ∨ op = .clrerr := by
  cases op <;> decide

theorem acceptedWhileBusy_opcode_iff {i : Instr} : acceptedWhileBusy i.opcode = true ↔ i = .nop ∨ i = .clrerr := by
  cases i <;> simp [Instr.opcode, acceptedWhileBusy]

theorem overrunOf_eq_false_iff {i : Instr} {s : State} : overrunOf i s = false ↔
    ∀ n d, i = .squeeze n → s.func.outputBytes = some d → s.outcnt.toNat + n.toNat ≤ d := by
  cases i with
  | squeeze n =>
    rw [overrunOf, State.overrun_eq_false_iff]
    exact ⟨fun h _ d hi => Instr.squeeze.inj hi ▸ h d, fun h d => h n d rfl⟩
  | nop | init func be | absorb n | finalize | finish | permute | laneWr idx | laneRd idx | clrerr => simp [overrunOf]

/-- Where BUSY is 0, and for NOP and CLRERR whatever it is, the operands are judged next. -/
theorem issueError_illegal_of_notStopped {op : Opcode} {o : Bool} {s : State}
    (h : s.busy = false ∨ acceptedWhileBusy op = true) : issueError (some op) .illegalOperand o s = some .illegal := by
  obtain h | h := h <;> simp [issueError, h]

theorem issueCommand_of_command {w : Word} {i : Instr} (h : decode w = .command i) (s : State) :
    issueCommand w s = exec i s := by
  rw [issueCommand, h]

theorem exec_busy {i : Instr} {s : State} (he : s.err = .noError) (hb : s.busy = true) (hn : i ≠ .nop)
    (hc : i ≠ .clrerr) : exec i s = .next { s with err := .busy } := by
  have hstopped : acceptedWhileBusy i.opcode = false :=
    Bool.eq_false_iff.2 fun ha => (acceptedWhileBusy_opcode_iff.1 ha).elim hn hc
  exact exec_raises he (issueError_busy hb hstopped)

/-- The last two checks: the phase, and the limit of a fixed output. -/
theorem exec_sequence {i : Instr} {s : State} (hi : i.WellFormed) (hs : s.Ready)
    (h : s.phase ∉ phaseRow i.opcode ∨ overrunOf i s = true) : exec i s = .next { s with err := .sequence } := by
  refine exec_raises hs.1 ?_
  rw [(verdict_ok_iff i).2 hi]
  exact issueError_sequence hs.2 (h.imp_left fun hp => Bool.eq_false_iff.2 (mt mem_phaseRow_iff.2 hp))

/-- No command's effect records an error. -/
theorem effectOf_err {i : Instr} {s : State} (he : s.err = .noError) : (effectOf i s).err = .noError := by
  cases i with
  | clrerr => rfl
  | init func be => simp only [effectOf]; cases Func.ofCode? func <;> exact he
  | absorb n => simp [effectOf, absorbEffect, he]
  | squeeze n => simp [effectOf, squeezeEffect, countOutput_port, he]
  | nop | finalize | finish | permute | laneWr idx | laneRd idx => exact he

/-- A command that passes every check leaves no error. -/
theorem exec_passes {i : Instr} {s : State} (he : s.err = .noError) (hb : s.busy = false ∨ i = .nop ∨ i = .clrerr)
    (hi : i.WellFormed) (hp : s.phase ∈ phaseRow i.opcode) (ho : overrunOf i s = false) :
    ∃ t, exec i s = .next t ∧ t.err = .noError := by
  have hacc : s.Accepts i :=
    ⟨he, fun hbusy => hb.resolve_left (by simp [hbusy]), hi, mem_phaseRow_iff.1 hp, ho⟩
  exact ⟨_, exec_of_accepts hacc, effectOf_err he⟩

/-- Settles O10: each clause is one check of `issueError`, reached because those before it passed. -/
theorem issueReportsTheFirstFailedCheck : Obligations.IssueReportsTheFirstFailedCheck := by
  intro s w he
  have hwf {i : Instr} (hd : decode w = .command i) : i.WellFormed := (encodeOfDecode w i hd).2
  refine ⟨fun hd => ?_, fun op hd hb hn hc => ?_, fun op hd hb => ?_, fun hd hb => ?_, fun hd hb => ?_,
    fun i hd hb hn hc => ?_, fun i hd hb hp => ?_, fun n d hd hb _ hfixed hpast => ?_, fun i hd hb hp hlimit => ?_⟩
  · rw [issueCommand, hd]
    exact issue_next_raises he rfl
  · have hstopped : acceptedWhileBusy op = false :=
      Bool.eq_false_iff.2 fun ha => (acceptedWhileBusy_iff.1 ha).elim hn hc
    rw [issueCommand, hd]
    exact issue_next_raises he (issueError_busy hb hstopped)
  · rw [issueCommand, hd]
    exact issue_next_raises he (issueError_illegal_of_notStopped (hb.imp_right acceptedWhileBusy_iff.2))
  · rw [issueCommand, hd]
    exact issue_next_raises he (issueError_busy hb rfl)
  · rw [issueCommand, hd]
    exact issue_next_raises he (issueError_config hb)
  · rw [issueCommand_of_command hd, exec_busy he hb hn hc]
  · rw [issueCommand_of_command hd, exec_sequence (hwf hd) ⟨he, hb⟩ (.inl hp)]
  · have hover : overrunOf (.squeeze n) s = true := by simpa [overrunOf, State.overrun, hfixed] using hpast
    rw [issueCommand_of_command hd, exec_sequence (hwf hd) ⟨he, hb⟩ (.inr hover)]
  · rw [issueCommand_of_command hd]
    exact exec_passes he hb (hwf hd) hp (overrunOf_eq_false_iff.2 hlimit)

/-- Settles O13: of a well-formed command in a Ready state the phase and the output limit are judged alone. -/
theorem commandsOutsideTheirPhasesRaiseSequence : Obligations.CommandsOutsideTheirPhasesRaiseSequence :=
  fun _ _ hi hs => ⟨fun hp => exec_sequence hi hs (.inl hp),
    fun hp hlimit => exec_passes hs.1 (.inl hs.2) hi hp (overrunOf_eq_false_iff.2 hlimit)⟩

/-! ## The error lock (rules R232, R233 and R242) -/

/-- Settles O12: a word changes ERR alone or has a command's effect, which records no error. -/
theorem raisedErrorChangesOnlyErr : Obligations.RaisedErrorChangesOnlyErr := by
  intro w s t h he ht
  obtain ⟨c, rfl⟩ | ⟨i, -, -, -, -, -, -, rfl⟩ := issueCommand_effect h
  · rfl
  · exact absurd (effectOf_err he) ht

/-- Under the lock every word but CLRERR's own is ignored. -/
theorem issueCommand_locked {w : Word} {s : State} (he : s.err ≠ .noError) (hw : w ≠ 0x9) :
    issueCommand w s = .next s := by
  unfold issueCommand
  cases hd : decode w with
  | command i =>
    refine exec_locked he ?_
    rintro rfl
    exact hw (encodeOfDecode w .clrerr hd).1.symm
  | illegalOpcode | illegalOperand op | badConfig => exact congrArg _ (issue_locked he)

theorem issueCommand_clrerr (s : State) : issueCommand 0x9 s = .next (clearError s) :=
  (encodedWordIssuesTheCommand .clrerr s).trans (exec_clrerr s)

/-- A step under the lock keeps ERR or clears it. -/
theorem step_locked_err {s t : State} (he : s.err ≠ .noError) (h : step s = .next t) :
    t.err = s.err ∨ t.err = .noError := by
  obtain ⟨ht, -⟩ | ⟨rest, -, rfl⟩ | ⟨r, rest, rfl⟩ | ⟨v, rest, -, rfl⟩ | ⟨v, rest, -, rfl⟩ | ⟨w, rest, -, hw⟩ :=
    step_effect h
  · exact .inl (by rw [ht])
  · exact .inr rfl
  · exact .inl rfl
  · exact .inl rfl
  · exact .inl rfl
  · by_cases hclr : w = 0x9
    · subst hclr
      obtain rfl := Host.Outcome.next.inj ((issueCommand_clrerr _).symm.trans hw)
      exact .inr rfl
    · obtain rfl := Host.Outcome.next.inj ((issueCommand_locked (s := s.atCommand rest) he hclr).symm.trans hw)
      exact .inl rfl

/-- The inputs to come are no register's value. -/
theorem readReg_setPending (r : Reg) (p : List Event) (s : State) : readReg r (s.setPending p) = readReg r s := by
  cases r <;> rfl

/-- Settles O11: the lock stands in `issue` alone, so the port and completion do under it what they always do. -/
theorem errorLockIgnoresEverythingButClrerr : Obligations.ErrorLockIgnoresEverythingButClrerr := by
  intro s he
  refine ⟨fun w hw => issueCommand_locked he hw, issueCommand_clrerr s, fun t h => step_locked_err he h,
    fun rest hp => ?_, fun v rest hp => step_wr hp, fun v rest hp => ?_, fun r rest hp => ?_⟩
  · rw [step_input hp, deliver, engineTurn_eq]
    rfl
  · rw [step_wr hp, writeReg, ← BitVec.setWidth_eq_extractLsb' (by decide)]
    rfl
  · rw [step_rd hp, readReg_setPending]
    rfl

/-- Settles O31: only ERR changed, so the lock holds from then on and ERR_IE is as it was. -/
theorem raisedErrorLocksAndAssertsIrq : Obligations.RaisedErrorLocksAndAssertsIrq := by
  intro w s t h he ht
  have honly : t = { s with err := t.err } := raisedErrorChangesOnlyErr w s t h he ht
  refine ⟨honly, fun w' hw' => issueCommand_locked ht hw', fun hie => ?_⟩
  have henable : t.errIe = true := by rw [honly]; exact hie
  simp [State.irq, henable, ht]

/-! ## The phase after a command (rule R237) -/

/-- A command that meets no error and records none passed every check. -/
theorem accepts_of_exec {i : Instr} {s t : State} (h : exec i s = .next t) (hs : s.err = .noError)
    (ht : t.err = .noError) : s.Accepts i ∧ t = effectOf i s := by
  obtain ⟨hl, -⟩ | ⟨hl, -⟩ | ⟨c, -, hc, rfl⟩ | ⟨-, hpass, rfl⟩ := exec_cases h
  · exact absurd hs hl
  · exact absurd hs hl
  · exact absurd ht (issueError_ne_noError hc)
  · obtain ⟨op, hop, hb, hok, hp, ho⟩ := issueError_eq_none.1 hpass
    obtain rfl := Option.some.inj hop
    exact ⟨⟨hs, fun hbusy => acceptedWhileBusy_opcode_iff.1 (hb hbusy), (verdict_ok_iff i).1 hok, hp, ho⟩, rfl⟩

theorem Func.eq_raw_iff_of_ofCode? {c : BitVec 4} {f : Func} (h : Func.ofCode? c = some f) : f = .raw ↔ c = 15 := by
  revert c
  cases f <;> decide

theorem effectOf_init_phase {func : BitVec 4} (h : funcField func = true) (be : Bool) (s : State) :
    (effectOf (.init func be) s).phase = if func = 15 then .raw else .created := by
  have hok : funcVerdict func = .ok := (verdict_ok_iff (.init func be)).2 h
  obtain ⟨f, hf⟩ : ∃ f, Func.ofCode? func = some f := by
    rw [← Option.isSome_iff_exists, Func.ofCode?_isSome, hok]
    rfl
  rw [effectOf, hf]
  exact if_congr (Func.eq_raw_iff_of_ofCode? hf) rfl rfl

/-- A count that comes to D ends the output (rules R169 and R173). -/
theorem countOutput_phase (n : Nat) (s : State) : (countOutput n s).phase =
    if s.func.outputBytes = some (countOutput n s).outcnt.toNat then .finished else s.phase := by
  obtain ⟨hd, heq⟩ | ⟨d, hd, ⟨hne, heq⟩ | ⟨hdone, heq⟩⟩ := countOutput_cases n s <;> rw [heq, hd]
  · exact (if_neg nofun).symm
  · exact (if_neg fun h => hne (Option.some.inj h).symm).symm
  · exact (if_pos (congrArg some hdone.symm)).symm

theorem squeezeEffect_phase (n : Nat) (s : State) : (squeezeEffect n s).phase =
    if s.func.outputBytes = some (squeezeEffect n s).outcnt.toNat then .finished else s.phase := by
  rw [squeezeEffect, State.markBusy_phase, State.markBusy_outcnt]
  exact countOutput_phase n _

/-- Settles O14: the phase each effect enters, and of all that a word or a step can do the effects and reset alone write
PHASE. -/
theorem phaseFollowsTheTransitionTable : Obligations.PhaseFollowsTheTransitionTable := by
  refine ⟨fun i s t h hs ht => ?_, fun w s t h herr => ?_, fun s t rest hp h => ?_, fun s t h hcmd hreset => ?_⟩
  · obtain ⟨hacc, rfl⟩ := accepts_of_exec h hs ht
    cases i with
    | init func be => exact effectOf_init_phase hacc.wellFormed be s
    | absorb n => simp [effectOf, absorbEffect]
    | squeeze n =>
      have hp : s.phase = .squeezing := by simpa [phaseRow, Instr.opcode] using mem_phaseRow_iff.2 hacc.allowed
      rw [← hp]
      exact squeezeEffect_phase n.toNat s
    | nop | finalize | finish | permute | laneWr idx | laneRd idx | clrerr => rfl
  · obtain ⟨c, rfl⟩ | ⟨i, -, he, -, -, -, -, rfl⟩ := issueCommand_effect h
    · rfl
    · exact (herr.elim (· he) (· (effectOf_err he))).elim
  · rw [step_input hp] at h
    obtain rfl := Host.Outcome.next.inj h
    rfl
  · obtain ⟨hsame, -⟩ | ⟨rest, hp, -⟩ | ⟨v, rest, -, rfl⟩ | ⟨v, rest, -, rfl⟩ | ⟨w, rest, i, hp, -⟩ := step_changes h
    · rw [hsame]
    · exact absurd hp (hreset rest)
    · rfl
    · rfl
    · exact absurd hp (hcmd w rest)

/-! ## The engine runs on (rule R234) -/

theorem step_runs (s : State) : ∃ t, step s = .next t := by
  unfold step
  cases s.pending with
  | nil => exact ⟨_, rfl⟩
  | cons e rest =>
    obtain ⟨t, hdeliver, -⟩ := deliver_runs e (s.setPending rest)
    exact ⟨t, hdeliver⟩

/-- Settles O37: every step answers a next state, so by induction every number of steps does. -/
theorem engineNeverStops : Obligations.EngineNeverStops := by
  intro s n
  induction n generalizing s with
  | zero => exact ⟨s, rfl⟩
  | succ n ih =>
    obtain ⟨s', hstep⟩ := step_runs s
    rw [core_run_succ hstep]
    exact ih s'

/-! ## irq (rule R240) -/

theorem ErrCode.code_eq_zero_iff {c : ErrCode} : c.code = 0 ↔ c = .noError := by
  cases c <;> decide

theorem State.status_irq (s : State) : s.status.getLsbD 1 = s.irq := by
  rw [State.status, getLsbD_statusFields]
  simp

/-- Settles O30: the two terms of the formula, and STATUS bit 1 read off the fields. -/
theorem irqFollowsItsFormula : Obligations.IrqFollowsItsFormula := by
  refine fun s => ⟨?_, s.status_irq⟩
  simp only [State.irq, State.rdyIe, State.errIe, Bool.or_eq_true, Bool.and_eq_true, Bool.not_eq_true', bne_iff_ne,
    ne_eq, ErrCode.code_eq_zero_iff]

end Sys2Proof.Machine
end

section
/-! Proofs of the family 70_reset_and_hazards: reset, completion, what sets and clears BUSY, and what the host meets while
BUSY = 1 (rules R260 to R271). -/

namespace Sys2Proof.Machine

/-! ## Reset (rule R260) -/

/-- Settles O2: the step gives the reset state with the inputs that follow. -/
theorem resetEventRestoresTheEngine : Obligations.ResetEventRestoresTheEngine := by
  intro s rest hp
  obtain ⟨hlanes, hphase, -, hfunc, hbe, herr, -, hbusy, hcursor, houtcnt, hdin, hdout, -, hirq⟩ :=
    resetHoldsTheStatedValues
  exact ⟨State.reset.setPending rest, step_input hp, hlanes, hphase, hfunc, hbe, herr, hbusy, hcursor, houtcnt, hdin,
    hdout, rfl, hirq, rfl, rfl⟩

/-! ## Completion (rules R262, R265 and R271) -/

/-- The step that is the engine's turn, by an input or because none is left (log entry 2). -/
theorem step_turn {s : State} {rest : List Event}
    (h : s.NextInput .engineTurn rest ∨ (s.pending = [] ∧ rest = [])) :
    step s = .next ((s.setPending rest).setBusy false) := by
  obtain h | ⟨hp, rfl⟩ := h
  · rw [step_input h, deliver, engineTurn_eq]
  · have hs : s.setPending [] = s := by rw [State.setPending, ← hp]
    rw [hs, step, hp, ← engineTurn_eq]

/-- Settles O33: where BUSY is 0 already, clearing it changes nothing. -/
theorem completionClearsBusyAndNothingElse : Obligations.CompletionClearsBusyAndNothingElse := by
  intro s rest h
  refine ⟨fun _ => step_turn h, fun hb => ?_⟩
  rw [step_turn h, State.setBusy, ← hb]
  rfl

/-- A step takes the next input off the inputs to come. -/
theorem step_takes_input {s : State} {e : Event} {rest : List Event} (h : s.NextInput e rest) :
    ∃ t, step s = .next t ∧ t.pending = rest := by
  obtain ⟨t, -, hpending⟩ := deliver_runs e s
  exact ⟨t.setPending rest, (step_input h).trans (hpending rest), rfl⟩

/-- Settles O36: each step takes one input, and the step after the last of them is the engine's turn. -/
theorem everyBusyPeriodEnds : Obligations.EveryBusyPeriodEnds := by
  intro s
  refine ⟨s.pending.length + 1, le_rfl, ?_⟩
  induction hp : s.pending generalizing s with
  | nil => exact ⟨_, core_run_succ (step_turn (.inr ⟨hp, rfl⟩)), rfl⟩
  | cons e rest ih =>
    obtain ⟨t, hstep, hrest⟩ := step_takes_input hp
    rw [List.length_cons, core_run_succ hstep]
    exact ih t hrest

/-! ## What the host meets while BUSY = 1 (rules R266 and R267) -/

/-- Settles O35: the read reaches DOUT, which BUSY masks. -/
theorem doutReadsZeroWhileBusy : Obligations.DoutReadsZeroWhileBusy := by
  intro s rest hp
  have hread : step s = .next ((s.setPending rest).respond (.readOkay (if s.busy then 0 else s.dout))) := step_rd hp
  refine ⟨fun hb => ?_, fun hb => ?_⟩
  · rw [hread, if_pos hb]
    rfl
  · rw [hread, if_neg (Bool.eq_false_iff.1 hb)]
    rfl

/-- Settles O15: the check of BUSY comes first, its error locks the engine, and with no error recorded neither NOP nor
CLRERR has anything to change. -/
theorem commandsWhileBusyRaiseBusy : Obligations.CommandsWhileBusyRaiseBusy := by
  intro i s he hb
  refine ⟨fun hn hc => ⟨exec_busy he hb hn hc, fun w hw => issueCommand_locked nofun hw⟩, ?_⟩
  rintro (rfl | rfl)
  · exact exec_nop s
  · rw [exec_clrerr, clearError, State.setErr, ← he]

/-- No word written to CMD clears BUSY: it records an error, or is NOP or CLRERR (rules R231 and R264). -/
theorem issueCommand_keeps_busy {w : Word} {s t : State} (h : issueCommand w s = .next t) (hb : s.busy = true) :
    t.busy = true := by
  obtain ⟨c, rfl⟩ | ⟨i, -, -, hi, -, -, -, rfl⟩ := issueCommand_effect h
  · exact hb
  · obtain rfl | rfl := hi hb <;> exact hb

/-- Settles O34: of all that a step can do, the turn and reset alone leave BUSY at 0 where it was 1. -/
theorem busyIsClearedOnlyByCompletionOrReset : Obligations.BusyIsClearedOnlyByCompletionOrReset := by
  intro s t h hs ht
  have hkeeps : ¬ t.busy = true := by simp [ht]
  obtain ⟨-, hturn⟩ | ⟨rest, hreset, -⟩ | ⟨r, rest, rfl⟩ | ⟨v, rest, -, rfl⟩ | ⟨v, rest, -, rfl⟩ | ⟨w, rest, -, hw⟩ :=
    step_effect h
  · exact hturn.imp_right fun ⟨rest, hp⟩ => ⟨rest, .inl hp⟩
  · exact .inr ⟨rest, .inr hreset⟩
  · exact absurd hs hkeeps
  · exact absurd hs hkeeps
  · exact absurd hs hkeeps
  · exact absurd (issueCommand_keeps_busy hw hs) hkeeps

/-! ## The commands that set BUSY (rule R264) -/

/-- The command runs a permutation in this state, when it is accepted: the list of rule R264. `effectOf_busy_iff` ties
it to the effects. -/
def State.RunsPermutation (s : State) (i : Instr) : Prop :=
  (∃ n, i = .absorb n ∧ s.rate.toNat ≤ s.cursor.toNat + n.toNat) ∨ i = .finalize ∨
    (∃ n, i = .squeeze n ∧ s.rate.toNat < s.cursor.toNat + n.toNat) ∨ i = .permute

/-- An ABSORB sets BUSY exactly when it reaches the end of the block (rule R164). -/
theorem absorbEffect_busy_iff {s : State} {n : Nat} (h200 : s.rate.toNat ≤ 200) (hc : s.cursor.toNat < s.rate.toNat)
    (hn : n ≤ s.rate.toNat) (hb : s.busy = false) :
    (absorbEffect n s).busy = true ↔ s.rate.toNat ≤ s.cursor.toNat + n := by
  by_cases hfull : s.rate.toNat ≤ s.cursor.toNat + n
  · obtain ⟨-, hbusy, -⟩ := absorbEffect_crosses h200 hc hfull (by omega)
    simp [hbusy, hfull]
  · obtain ⟨-, hbusy, -⟩ := absorbEffect_within h200 hb (Nat.lt_of_not_le hfull)
    simp [hbusy, hfull]

/-- From BUSY = 0 an accepted command sets BUSY exactly when it ran a permutation. -/
theorem effectOf_busy_iff {i : Instr} {s : State} (h : s.Inv) (hi : s.Accepts i) (hb : s.busy = false) :
    (effectOf i s).busy = true ↔ s.RunsPermutation i := by
  have hallowed := hi.allowed
  cases i with
  | absorb n =>
    have hopen : s.Open := by simpa [State.Open, allowedIn, Instr.opcode] using hallowed
    have hn : n.toNat ≤ 8 := of_decide_eq_true hi.wellFormed
    obtain ⟨hc, -⟩ := h.openBlock hopen
    obtain ⟨h72, h168⟩ := hopen.rate_bounds hc
    simp [State.RunsPermutation, effectOf, absorbEffect_busy_iff (n := n.toNat) (by omega) hc (by omega) hb]
  | squeeze n =>
    have hp : s.phase = .squeezing := by simpa [allowedIn, Instr.opcode] using hallowed
    have hn : n.toNat ≤ 8 := of_decide_eq_true hi.wellFormed
    obtain ⟨hc, -, hf⟩ := h.squeezing hp
    obtain ⟨h72, -⟩ := Func.rate_bounds hf
    rw [← State.rate_of_sponge (s := s) (by simp [hp]) (by simp [hp])] at h72
    simp [State.RunsPermutation, effectOf, squeezeEffect_busy hc (n := n.toNat) (by omega), hb]
  | finalize | permute => simp [State.RunsPermutation, effectOf, finalizeEffect, permuteEffect]
  | init func be =>
    have hkeeps : (effectOf (.init func be) s).busy = s.busy := by
      simp only [effectOf]
      cases Func.ofCode? func <;> rfl
    simp [State.RunsPermutation, hkeeps, hb]
  | nop | finish | laneWr idx | laneRd idx | clrerr =>
    simp [State.RunsPermutation, effectOf, enterFinished, laneWrEffect, laneRdEffect, clearError, hb]

/-- Settles O32: a word that sets BUSY changed more than ERR, so it was accepted; and an accepted command has its
effect. -/
theorem busySetExactlyWhenAPermutationRan : Obligations.BusySetExactlyWhenAPermutationRan := by
  intro w s t hinv h
  refine ⟨issueCommand_keeps_busy h, fun hb => ⟨fun ht => ?_, ?_⟩⟩
  · obtain ⟨c, rfl⟩ | ⟨i, hd, he, hbusy, hwf, hp, ho, rfl⟩ := issueCommand_effect h
    · exact absurd ht (by simp [hb])
    · exact ⟨he, effectOf_err he, i, hd, (effectOf_busy_iff hinv ⟨he, hbusy, hwf, hp, ho⟩ hb).1 ht⟩
  · rintro ⟨he, het, i, hd, hruns⟩
    rw [issueCommand_of_command hd] at h
    obtain ⟨hacc, rfl⟩ := accepts_of_exec h he het
    exact (effectOf_busy_iff hinv hacc hb).2 hruns

end Sys2Proof.Machine
end
